-- ==== Sys2Proof/Word.lean ====
section
/-! DEFINITION. The block's machine words (00_scope.md R10, R11; 30_encoding.md R70). -/

namespace Sys2Proof

/-- A byte is 8 bits (R10). -/
abbrev Byte := BitVec 8

/-- The unsigned 32-bit word of the lanes, the seed and the digest; its `+`, `-` and `*` are mod 2^32 (R11). -/
abbrev Word := BitVec 32

/-- The 64-bit width of `total_len` (R24). -/
abbrev Len := BitVec 64

/-- The 96-bit command word, format CMD96 (R70). -/
abbrev CmdWord := BitVec 96

end Sys2Proof
end

