-- ==== Sys2Proof/Syntax.lean ====
section
/-! DEFINITION. The command set: RESET, UPDATE and FINISH (00_scope.md R3, 30_encoding.md R73), one constructor per row
of spec/opcode_table.json. -/

namespace Sys2Proof

/-- A decoded command (R72, R73). -/
inductive Instr where
  /-- RESET(seed): the seed is a u32 (R100). -/
  | reset (seed : Word)
  /-- UPDATE(offset, count): each a 32-bit two's-complement signed integer, read as the integer it denotes
  (R16, R110); `Instr.WellFormed` holds the range. -/
  | update (offset count : Int)
  /-- FINISH has no operand (R140). -/
  | finish
  deriving DecidableEq, Repr

end Sys2Proof
end

