-- ==== Sys2Proof/WellFormed.lean ====
section
/-! DEFINITION. Which command terms have an encoding: UPDATE's operands are 32-bit two's-complement integers
(00_scope.md R16, 30_encoding.md R72). -/

namespace Sys2Proof

/-- `x` is a 32-bit two's-complement signed integer (R16). -/
abbrev FitsSint32 (x : Int) : Prop := -(2 ^ 31) ≤ x ∧ x < 2 ^ 31

/-- The checks of a command term, one clause a constructor: RESET's seed is a u32 by its type, UPDATE's two operands
are sint32 (R72), FINISH has none. -/
abbrev Instr.WellFormed (i : Instr) : Prop :=
  match i with
  | .reset _ => True
  | .update offset count => FitsSint32 offset ∧ FitsSint32 count
  | .finish => True

/-- `Instr.WellFormed` as a Bool. -/
def Instr.wf (i : Instr) : Bool :=
  match i with
  | .reset _ => true
  | .update offset count => decide (FitsSint32 offset) && decide (FitsSint32 count)
  | .finish => true

end Sys2Proof
end

