-- ==== Sys2Proof/Decode.lean ====
section
/-! DEFINITION. Decoding and encoding the 96-bit command word (30_encoding.md R70 to R79), and its 12 bytes on the wire
(R79). Decoding is total: every word is a command or is rejected by name (R74, R75). -/

namespace Sys2Proof

/-- Why a word is no command: the reserved encodings of R75, and a wire transfer that is not 12 bytes (R79). -/
inductive DecodeError where
  /-- OP is 0x00 or 0x04 .. 0xFF (R73, R75, R78). -/
  | reservedOpcode (op : Byte)
  /-- RSV is not zero (R75, R76). -/
  | reservedBits
  /-- RESET with B ≠ 0 (R75). -/
  | resetOperandB
  /-- FINISH with A ≠ 0 or B ≠ 0 (R75). -/
  | finishOperand
  /-- A byte sequence that is not one 12-byte command (R70, R79). -/
  | wireLength (n : Nat)
  deriving DecidableEq, Repr

/-- OP, bits [7:0] (R71). -/
def CmdWord.op (w : CmdWord) : Byte := w.extractLsb' 0 8

/-- RSV, bits [31:8] (R71). -/
def CmdWord.rsv (w : CmdWord) : BitVec 24 := w.extractLsb' 8 24

/-- Operand A, bits [63:32] (R71). -/
def CmdWord.a (w : CmdWord) : Word := w.extractLsb' 32 32

/-- Operand B, bits [95:64] (R71). -/
def CmdWord.b (w : CmdWord) : Word := w.extractLsb' 64 32

/-- The signed integer a 32-bit field denotes: x − 2^32 if x[31] = 1, else x (R16). -/
def sint32 (x : Word) : Int :=
  if x.getLsbD 31 then (x.toNat : Int) - 2 ^ 32 else (x.toNat : Int)

/-- `decode` of R74: the command a word stands for, or the reason it is reserved. -/
def decode (w : CmdWord) : Except DecodeError Instr :=
  if w.rsv ≠ 0 then .error .reservedBits
  else if w.op = 0x01 then
    if w.b = 0 then .ok (.reset w.a) else .error .resetOperandB
  else if w.op = 0x02 then .ok (.update (sint32 w.a) (sint32 w.b))
  else if w.op = 0x03 then
    if w.a = 0 ∧ w.b = 0 then .ok .finish else .error .finishOperand
  else .error (.reservedOpcode w.op)

/-- The command word of the fields B, A and OP, with RSV zero (R71, R76). -/
def CmdWord.ofFields (b a : Word) (op : Byte) : CmdWord := b ++ a ++ 0#24 ++ op

/-- The command word of a command (R71 to R73). -/
def encode (i : Instr) : CmdWord :=
  match i with
  | .reset seed => CmdWord.ofFields 0 seed 0x01
  | .update offset count => CmdWord.ofFields (BitVec.ofInt 32 count) (BitVec.ofInt 32 offset) 0x02
  | .finish => CmdWord.ofFields 0 0 0x03

/-- The word as 12 bytes, byte 0 its bits [7:0] and byte 11 its bits [95:88] (R79). -/
def CmdWord.toWire (w : CmdWord) : List Byte :=
  (List.range 12).map fun k => w.extractLsb' (8 * k) 8

/-- The word whose bytes these are, the first the least significant (R79). -/
def CmdWord.ofWire : List Byte → CmdWord
  | [] => 0
  | b :: bs => (CmdWord.ofWire bs <<< 8) ||| b.setWidth 96

/-- Decoding the bytes of one command: every command has 12 (R70, R77, R79). -/
def decodeBytes (bs : List Byte) : Except DecodeError Instr :=
  if bs.length = 12 then decode (CmdWord.ofWire bs) else .error (.wireLength bs.length)

/-- Encoding to the wire (R79). -/
def encodeBytes (i : Instr) : List Byte := (encode i).toWire

/-- The command word whose low `nbits` bits are those of `w` and whose other bits are zero. -/
def tableWord (nbits w : Nat) : CmdWord := BitVec.ofNat 96 (w % 2 ^ nbits)

/-- The command the decoder reads from the word `w`, its bits numbered as spec/opcode_table.json numbers them: the word
is laid out as its 12 wire bytes (R79) and given to `decodeBytes`. -/
def decodeTableWord (nbits w : Nat) : Option Instr :=
  match decodeBytes (tableWord nbits w).toWire with
  | .ok i => some i
  | .error _ => none

end Sys2Proof
end

