-- ==== Sys2Proof/Config.lean ====
section
/-! DEFINITION. What an implementation fixes: the three named parameters of 00_scope.md R8, the identity of R3,
and the free values the spec leaves open (20_memory.md R53, 10_state.md R37). -/

namespace Sys2Proof

/-- POST_FINISH_UPDATE (R8, R111, decision D8): whether an implementation forbids an UPDATE after FINISH. -/
inductive PostFinishUpdate where
  /-- UPDATE after FINISH is refused until a RESET. -/
  | refuse
  /-- UPDATE after FINISH extends the finished message's stream (R246). -/
  | continue_
  deriving DecidableEq, Repr

/-- The named parameters of R8. They are fixed for one block: `State` carries them and no step writes them, so that
a statement about every state is a statement about every value of every parameter. -/
structure Params where
  /-- MAX_BUF_LEN, the length limit of the data buffer port (R50, D5). -/
  maxBufLen : Nat
  /-- RESET_SEED, the seed loaded at power-on (R230, D7). -/
  resetSeed : Word
  /-- POST_FINISH_UPDATE (R111, D8). -/
  postFinishUpdate : PostFinishUpdate
  deriving DecidableEq, Repr

/-- The default of each parameter, as R8's table states it. -/
def Config.defaults : Params where
  maxBufLen := 2 ^ 31 - 1
  resetSeed := 0
  postFinishUpdate := .refuse

/-- The identity string (R3, decision D18); not behavioural. -/
def Config.identity : String := "XXH32-SM"

/-- The command set revision (R3, decision D18); not behavioural. -/
def Config.revision : String := "XXHS-v7"

/-- FREE VALUE (log entry 2): byte number n of the values the spec leaves open. It has no body, so no proof can see
what it is: the digest bytes of a response other than FINISH OK (R53, I6) and the bytes of Pend after a power-on
(R37, I3) are these bytes, each taken at a fresh index. -/
opaque Config.freeByte : Nat → Byte

end Sys2Proof
end

