-- ==== Sys2Proof/Machine/Constants.lean ====
section
/-! DEFINITION. The five normative constants of 00_scope.md R8 and R9, at the decimal values R9 states. -/

namespace Sys2Proof.Machine

/-- PRIME1 = 2654435761 (R9). -/
def prime1 : Word := 2654435761#32

/-- PRIME2 = 2246822519 (R9). -/
def prime2 : Word := 2246822519#32

/-- PRIME3 = 3266489917 (R9). -/
def prime3 : Word := 3266489917#32

/-- PRIME4 = 668265263 (R9). -/
def prime4 : Word := 668265263#32

/-- PRIME5 = 374761393 (R9). -/
def prime5 : Word := 374761393#32

end Sys2Proof.Machine
end

