-- ==== Sys2Proof/Machine/State.lean ====
section
/-! DEFINITION. The state of the block (10_state.md R20 to R38), its ports (20_memory.md R50, R53) and the host's actions
still to come (R19, R31), as plain data; the two ways a step can stop; the state after reset (R37, R230). -/

namespace Sys2Proof.Machine

/-- A byte store: cells with strictly rising addresses, none of them equal to what an unlisted address reads as
(`Memory.wf`). -/
abbrev Memory := List Host.Cell

/-- The four 32-bit mixing lanes (R21). -/
structure Lanes where
  v1 : Word
  v2 : Word
  v3 : Word
  v4 : Word
  deriving DecidableEq, Repr

/-- The 16-byte pending FIFO; `Pend[0]` is the oldest byte (R25, R26). -/
abbrev Pend := Vector Byte 16

/-- The block's whole architectural state (R20, R38). -/
structure HasherState where
  /-- Seed of the current stream (R23). -/
  seed : Word
  /-- The lanes v1..v4 (R21). -/
  lanes : Lanes
  /-- `total_len`: count of all bytes passed to UPDATE since RESET (R24). -/
  totalLen : Len
  /-- `Pend[0..15]`, stale from `pendingLen` on (R25, R35). -/
  pend : Pend
  /-- `pending_len`, 0..15 (R26, R27). -/
  pendingLen : Fin 16
  /-- FINISH issued since the last RESET (R30). -/
  fin : Bool
  deriving DecidableEq, Repr

/-- The data buffer port `DBUF[0 .. len − 1]` (R50). -/
structure Dbuf where
  /-- `buf_len`. -/
  len : Nat
  /-- The bytes; an unlisted address below `len` reads as `Memory.unlisted`. -/
  mem : Memory
  deriving DecidableEq, Repr

/-- The four digest bytes D[0..3] of a response (R53, R54). -/
structure Digest where
  d0 : Byte
  d1 : Byte
  d2 : Byte
  d3 : Byte
  deriving DecidableEq, Repr

/-- One response on the response port (R53). -/
structure Response where
  /-- 0x00 OK, 0x01 INVALID_ARGUMENT. -/
  status : Byte
  /-- Meaningful for a FINISH whose status is OK; free values in every other response (log entry 2). -/
  digest : Digest
  deriving DecidableEq, Repr

/-- What the host does next (R19, R230, R240, R242). -/
inductive HostEvent where
  /-- Issues one command word and waits for its response (R240). -/
  | command (word : CmdWord)
  /-- Presents a data buffer, in force until the next one (R50, R80). -/
  | present (bytes : List Byte)
  /-- Cycles the power while no command is in progress (R215, R230). -/
  | powerOn
  deriving DecidableEq, Repr

/-- The machine: the block, its ports, and the host's actions still to come. -/
structure State where
  /-- The architectural state (R20). -/
  hasher : HasherState
  /-- The model's sticky mark: a command was refused (R34). -/
  refused : Bool
  /-- The data buffer the host presents (R50). -/
  dbuf : Dbuf
  /-- The responses given so far, oldest first: one per answered command (R53). -/
  responses : List Response
  /-- The host's actions still to come, oldest first (R31, R240). -/
  host : List HostEvent
  /-- The fixed parameters (R8); no step writes them. -/
  params : Params
  /-- MODEL'S OWN: the index of the next free value (log entry 2). -/
  freeCount : Nat
  deriving DecidableEq, Repr

/-- Why the machine stops with a fault. The block itself has none (R202, R207): InvalidArgument is a response. -/
inductive Fault where
  /-- Raised by `presentBuffer` when the host presents a buffer longer than MAX_BUF_LEN, which the port cannot carry
  (R50, D5: outside the model). Safe: nothing can be concluded of such a host (log entry 7). -/
  | bufferTooLong
  deriving DecidableEq, Repr

/-- Why the model gives a command no meaning: the closed set of R205, and the host's name for an instruction without
a meaning. Each of R205's reasons carries the machine as R205 leaves it: the mark set, HasherState unchanged, no
response. -/
inductive Refusal where
  /-- Raised by an arm of `exec` that is not written yet; there is none. Safe. -/
  | notModelled (mnemonic : String)
  /-- RESERVED_ENCODING: raised by the decoder for a word R74 maps to Reserved (R75, R205). Safe: toward unprovable. -/
  | reservedEncoding (after : State)
  /-- UPDATE_AFTER_FINISH: raised by UPDATE when fin = 1 and POST_FINISH_UPDATE = Refuse (R111, R205). Safe: toward
  unprovable. -/
  | updateAfterFinish (after : State)
  deriving DecidableEq, Repr

/-- What a step of this machine answers. -/
abbrev Result := Host.Outcome State Fault Refusal

/-- The machine right after power-on with the default parameters (R37, R230): the INIT configuration of seed
RESET_SEED. `pend` is a value the spec leaves open (log entry 1), as are the empty ports and the empty list of host
actions (log entries 3, 4, 5) and the counter (log entry 2). -/
def State.reset : State where
  hasher := {
    seed := Config.defaults.resetSeed
    lanes := {
      v1 := Config.defaults.resetSeed + prime1 + prime2
      v2 := Config.defaults.resetSeed + prime2
      v3 := Config.defaults.resetSeed
      v4 := Config.defaults.resetSeed - prime1 }
    totalLen := 0
    pend := Vector.replicate 16 0
    pendingLen := 0
    fin := false }
  refused := false
  dbuf := { len := 0, mem := [] }
  responses := []
  host := []
  params := Config.defaults
  freeCount := 0

end Sys2Proof.Machine
end

