-- ==== Sys2Proof/Machine/Flags.lean ====
section
/-! DEFINITION. The block's one flag, fin (10_state.md R30, R32): set by FINISH (42_finish.md R149), cleared by RESET
(40_reset_cmd.md R102) and power-on, read by UPDATE's first check (41_update.md R111). -/

namespace Sys2Proof.Machine

/-- `fin <- 1` (R149). -/
def HasherState.setFin (h : HasherState) : HasherState := { h with fin := true }

/-- Check 1 of R111: fin = 1 and POST_FINISH_UPDATE = Refuse. -/
def State.updateForbidden (s : State) : Bool :=
  s.hasher.fin && decide (s.params.postFinishUpdate = .refuse)

end Sys2Proof.Machine
end

