-- ==== Sys2Proof/Machine/Operands.lean ====
section
/-! DEFINITION. The pseudocode primitives of 00_scope.md R10 to R14 on words and bytes: rotation, little-endian word
assembly, zero extension, and the digest's serialization (20_memory.md R54). -/

namespace Sys2Proof.Machine

/-- `zext_32` of a byte (R11). -/
def zext32 (b : Byte) : Word := b.setWidth 32

/-- `rotl32(x, r)` for 1 ≤ r ≤ 31 (R12). -/
def rotl32 (x : Word) (r : Nat) : Word := (x <<< r) ||| (x >>> (32 - r))

/-- `LE32(b0, b1, b2, b3)`: the word whose least significant byte is b0 (R13). -/
def le32 (b0 b1 b2 b3 : Byte) : Word :=
  zext32 b0 ||| (zext32 b1 <<< 8) ||| (zext32 b2 <<< 16) ||| (zext32 b3 <<< 24)

/-- The little-endian word at byte offset `p` of a byte group (R13, R54). -/
def wordAt (g : List Byte) (p : Nat) : Word :=
  le32 (g.getD p 0) (g.getD (p + 1) 0) (g.getD (p + 2) 0) (g.getD (p + 3) 0)

/-- The digest bytes D[0] = h[7:0] .. D[3] = h[31:24] (R54, R148). -/
def Digest.ofWord (h : Word) : Digest where
  d0 := h.extractLsb' 0 8
  d1 := h.extractLsb' 8 8
  d2 := h.extractLsb' 16 8
  d3 := h.extractLsb' 24 8

end Sys2Proof.Machine
end

