-- ==== Sys2Proof/Machine/Lanes.lean ====
section
/-! DEFINITION. The lane unit: the lanes of a seed (40_reset_cmd.md R101), the round and the block-mix step
(41_update.md R116), and the merge (42_finish.md R143). -/

namespace Sys2Proof.Machine

/-- The lanes RESET(s) loads (R101). -/
def initialLanes (s : Word) : Lanes where
  v1 := s + prime1 + prime2
  v2 := s + prime2
  v3 := s + 0
  v4 := s - prime1

/-- `Round(acc, w) = rotl32(acc + w * PRIME2, 13) * PRIME1` (R116). -/
def laneRound (acc w : Word) : Word := rotl32 (acc + w * prime2) 13 * prime1

/-- `BlockMix` over the 16-byte group `g`: lane k takes the word at byte offset 4(k − 1) (R22, R116). -/
def blockMix (l : Lanes) (g : List Byte) : Lanes where
  v1 := laneRound l.v1 (wordAt g 0)
  v2 := laneRound l.v2 (wordAt g 4)
  v3 := laneRound l.v3 (wordAt g 8)
  v4 := laneRound l.v4 (wordAt g 12)

/-- The `while` of UPDATE step 4, run at most `fuel` times: while 16 or more bytes remain, one block-mix step over the
next 16 (R115). It answers the lanes and the bytes that remain. -/
def bulkBlocks (fuel : Nat) (l : Lanes) (d : List Byte) : Lanes × List Byte :=
  match fuel with
  | 0 => (l, d)
  | k + 1 => if 16 ≤ d.length then bulkBlocks k (blockMix l (d.take 16)) (d.drop 16) else (l, d)

/-- The merge of FINISH (R143). -/
def mergeLanes (l : Lanes) : Word := rotl32 l.v1 1 + rotl32 l.v2 7 + rotl32 l.v3 12 + rotl32 l.v4 18

end Sys2Proof.Machine
end

