-- ==== Sys2Proof/Machine/Memory.lean ====
section
/-! DEFINITION. The byte store behind the data buffer port (20_memory.md R50, 00_scope.md R14): one canonical form, one
read, one write. -/

namespace Sys2Proof.Machine

/-- What an address that no cell lists reads as. Below `buf_len` the host gives every byte, so this only says which
byte is not written out; from `buf_len` on no command reads (R52, R111; log entry 3). -/
def Memory.unlisted : Byte := 0

/-- Every address is at least `lo`, addresses rise strictly, and no cell holds `unlisted`. -/
def Memory.wfFrom (lo : Nat) : Memory → Bool
  | [] => true
  | (a, b) :: m => decide (lo ≤ a) && (b != Memory.unlisted) && Memory.wfFrom (a + 1) m

/-- The canonical form: equal byte stores are equal data. -/
def Memory.wf (m : Memory) : Bool := Memory.wfFrom 0 m

/-- The byte at an address (R14). -/
def Memory.read (m : Memory) (a : Nat) : Byte :=
  match m with
  | [] => Memory.unlisted
  | (a', b) :: m' => if a' = a then b else Memory.read m' a

/-- The store with one byte changed, in canonical form again. Only the host writes a byte store; the block writes no
memory (R14, R57). -/
def Memory.write (m : Memory) (a : Nat) (b : Byte) : Memory :=
  match m with
  | [] => if b = Memory.unlisted then [] else [(a, b)]
  | (a', b') :: m' =>
    if a < a' then (if b = Memory.unlisted then (a', b') :: m' else (a, b) :: (a', b') :: m')
    else if a = a' then (if b = Memory.unlisted then m' else (a, b) :: m')
    else (a', b') :: Memory.write m' a b

/-- The store that holds the bytes `bs` from address `a` on and lists nothing else. -/
def Memory.ofBytes (a : Nat) (bs : List Byte) : Memory :=
  match bs with
  | [] => []
  | b :: bs' => Memory.write (Memory.ofBytes (a + 1) bs') a b

/-- The `n` bytes from address `a` on, in order. -/
def Memory.readBytes (m : Memory) (a n : Nat) : List Byte :=
  (List.range n).map fun i => Memory.read m (a + i)

/-- The buffer the host presents as the byte array `bs` (R50). -/
def Dbuf.ofBytes (bs : List Byte) : Dbuf where
  len := bs.length
  mem := Memory.ofBytes 0 bs

/-- The snapshot `d[i] = DBUF[offset + i]`, 0 ≤ i < n, of an UPDATE (R58, R112). -/
def Dbuf.slice (d : Dbuf) (offset n : Nat) : List Byte := Memory.readBytes d.mem offset n

end Sys2Proof.Machine
end

