-- ==== Sys2Proof/Machine/Pending.lean ====
section
/-! DEFINITION. The pending FIFO (10_state.md R25, R26; 20_memory.md R51): reading a byte or a word of it, and writing a
run of bytes at its tail or its start. -/

namespace Sys2Proof.Machine

/-- The 16 bytes Pend[0] .. Pend[15] in order. -/
def pendBytes (p : Pend) : List Byte := p.toList

/-- `Pend[i]` (R14). -/
def pendByte (p : Pend) (i : Nat) : Byte := (pendBytes p).getD i 0

/-- `PendWord(p)`, the little-endian word Pend[p .. p + 3] (R14). -/
def pendWord (p : Pend) (i : Nat) : Word :=
  le32 (pendByte p i) (pendByte p (i + 1)) (pendByte p (i + 2)) (pendByte p (i + 3))

/-- `Pend[at + i] <- d[i]` for every byte of `d`, in order (R112). -/
def pendStore (p : Pend) (at_ : Nat) (d : List Byte) : Pend :=
  match d with
  | [] => p
  | b :: d' => pendStore (p.setIfInBounds at_ b) (at_ + 1) d'

end Sys2Proof.Machine
end

