-- ==== Sys2Proof/Machine/Ops.lean ====
section
/-! DEFINITION. The operations the commands share: the INIT configuration (10_state.md R37), the response port
(20_memory.md R53), raising InvalidArgument and refusing (60_exceptions.md R201, R205), the DBUF port (20_memory.md R50)
and power-on (70_reset_and_hazards.md R230). -/

namespace Sys2Proof.Machine

/-- Status 0x00, OK (R53). -/
def statusOk : Byte := 0x00

/-- Status 0x01, INVALID_ARGUMENT (R53, R201). -/
def statusInvalidArgument : Byte := 0x01

/-- The machine with the hasher `h`. -/
def State.setHasher (s : State) (h : HasherState) : State := { s with hasher := h }

/-- The machine with the buffer `d` on the DBUF port. -/
def State.setDbuf (s : State) (d : Dbuf) : State := { s with dbuf := d }

/-- The machine with the host's remaining actions `es`. -/
def State.setHost (s : State) (es : List HostEvent) : State := { s with host := es }

/-- The hasher with the lanes `l`. -/
def HasherState.setLanes (h : HasherState) (l : Lanes) : HasherState := { h with lanes := l }

/-- The hasher with the length `n`. -/
def HasherState.setTotalLen (h : HasherState) (n : Len) : HasherState := { h with totalLen := n }

/-- The hasher with the FIFO `p`, `n` of its bytes valid. -/
def HasherState.setPend (h : HasherState) (p : Pend) (n : Fin 16) : HasherState :=
  { h with pend := p, pendingLen := n }

/-- The INIT configuration of a seed (R37, R101), over the bytes `pend` that nothing writes. -/
def HasherState.init (seed : Word) (pend : Pend) : HasherState where
  seed := seed
  lanes := initialLanes seed
  totalLen := 0
  pend := pend
  pendingLen := 0
  fin := false

/-- The four digest bytes of a response that carries no digest: free values number n .. n + 3 (R53, I6). -/
def freeDigest (n : Nat) : Digest where
  d0 := Config.freeByte n
  d1 := Config.freeByte (n + 1)
  d2 := Config.freeByte (n + 2)
  d3 := Config.freeByte (n + 3)

/-- The bytes of Pend after a power-on: free values number n .. n + 15 (R37, I3). -/
def freePend (n : Nat) : Pend := ⟨((List.range 16).map fun i => Config.freeByte (n + i)).toArray, by simp⟩

/-- `respond(status, digest)` (R15, R53). -/
def State.respond (s : State) (r : Response) : State := { s with responses := s.responses ++ [r] }

/-- `respond(status, -)`: the digest bytes are unspecified, so each is a fresh free value (R53, I6). -/
def State.respondStatus (s : State) (status : Byte) : State :=
  { s with
    responses := s.responses ++ [{ status := status, digest := freeDigest s.freeCount }]
    freeCount := s.freeCount + 4 }

/-- `respond(OK, digest)` of FINISH (R53, R141). -/
def State.respondDigest (s : State) (h : Word) : State :=
  s.respond { status := statusOk, digest := Digest.ofWord h }

/-- `raise InvalidArgument()`: the command ends at once with status INVALID_ARGUMENT and every state element as it was
(R15, R201, R203). The block then accepts any command (R208), so this is a next state. -/
def raiseInvalidArgument (s : State) : Result := .next (s.respondStatus statusInvalidArgument)

/-- The machine a refusal leaves: the sticky mark set, HasherState unchanged, no response (R34, R205). -/
def State.markRefused (s : State) : State := { s with refused := true }

/-- `refuse RESERVED_ENCODING` (R75, R205). -/
def refuseReservedEncoding (s : State) : Result := .refused (.reservedEncoding s.markRefused)

/-- `refuse UPDATE_AFTER_FINISH` (R111, R205). -/
def refuseUpdateAfterFinish (s : State) : Result := .refused (.updateAfterFinish s.markRefused)

/-- The host presents the byte array `bs` on the DBUF port, where it stays in force until the next one (R50, R80). The
port carries at most MAX_BUF_LEN bytes (R50, D5; log entry 7). -/
def presentBuffer (bs : List Byte) (s : State) : Result :=
  if bs.length ≤ s.params.maxBufLen then .next (s.setDbuf (Dbuf.ofBytes bs)) else .fault .bufferTooLong

/-- Power-on: the INIT configuration of RESET_SEED, Pend unspecified, the model's mark false (R230, R232). That the buffer
in force (log entry 3) and the responses given so far (log entry 4) stay is a DESIGN CHOICE. -/
def powerOn (s : State) : State :=
  { s.setHasher (HasherState.init s.params.resetSeed (freePend s.freeCount)) with
    refused := false
    freeCount := s.freeCount + 16 }

end Sys2Proof.Machine
end

