-- ==== Sys2Proof/Machine/Finish.lean ====
section
/-! DEFINITION. FINISH and the finalization unit (42_finish.md R140 to R153). -/

namespace Sys2Proof.Machine

/-- Step 1: the merge when total_len ≥ 16, else seed + PRIME5 (R142, R143). -/
def HasherState.startHash (h : HasherState) : Word :=
  if (16 : Len) ≤ h.totalLen then mergeLanes h.lanes else h.seed + prime5

/-- Step 2: bits [31:0] of total_len (R144). -/
def HasherState.lengthTerm (h : HasherState) : Word := h.totalLen.extractLsb' 0 32

/-- One word of the tail: `h = h + word*PRIME3; h = rotl32(h, 17) * PRIME4` (R145). -/
def foldWord (h w : Word) : Word := rotl32 (h + w * prime3) 17 * prime4

/-- One byte of the tail, zero-extended: `h = h + byte*PRIME5; h = rotl32(h, 11) * PRIME1` (R146). -/
def foldByte (h : Word) (b : Byte) : Word := rotl32 (h + zext32 b * prime5) 11 * prime1

/-- The `while` of step 3, run at most `fuel` times: p and h after the word walk (R145). -/
def wordTail (fuel : Nat) (pend : Pend) (n p : Nat) (h : Word) : Nat × Word :=
  match fuel with
  | 0 => (p, h)
  | k + 1 => if p + 4 ≤ n then wordTail k pend n (p + 4) (foldWord h (pendWord pend p)) else (p, h)

/-- The `while` of step 4, run at most `fuel` times: h after the byte walk (R146). -/
def byteTail (fuel : Nat) (pend : Pend) (n p : Nat) (h : Word) : Word :=
  match fuel with
  | 0 => h
  | k + 1 => if p < n then byteTail k pend n (p + 1) (foldByte h (pendByte pend p)) else h

/-- Steps 3 and 4: each walk runs at most 3 times, since pending_len ≤ 15 (R17, R145, R146). -/
def tailFold (pend : Pend) (n : Nat) (h : Word) : Word :=
  byteTail 3 pend n (wordTail 3 pend n 0 h).1 (wordTail 3 pend n 0 h).2

/-- `h ^ (h >> k)`, the shift logical (R147). -/
def xorShift (k : Nat) (h : Word) : Word := h ^^^ (h >>> k)

/-- Step 5, the avalanche (R147). -/
def avalanche (h : Word) : Word :=
  xorShift 16 (xorShift 13 (xorShift 15 h * prime2) * prime3)

/-- The digest h of FINISH, steps 1 to 5 (R141). -/
def HasherState.finalHash (h : HasherState) : Word :=
  avalanche (tailFold h.pend h.pendingLen (h.startHash + h.lengthTerm))

/-- FINISH(): fin <- 1 and nothing else of HasherState; the response carries the digest (R141, R148, R149). -/
def execFinish (s : State) : Result :=
  .next ((s.setHasher s.hasher.setFin).respondDigest s.hasher.finalHash)

end Sys2Proof.Machine
end

