-- ==== Sys2Proof/Machine/Reset.lean ====
section
/-! DEFINITION. RESET (40_reset_cmd.md R100 to R105). -/

namespace Sys2Proof.Machine

/-- RESET(seed): the INIT configuration of the seed; Pend is not written, the refused mark is unchanged, status OK
(R101, R102). -/
def execReset (seed : Word) (s : State) : Result :=
  .next ((s.setHasher (HasherState.init seed s.hasher.pend)).respondStatus statusOk)

end Sys2Proof.Machine
end

