-- ==== Sys2Proof/Machine/Update.lean ====
section
/-! DEFINITION. UPDATE (41_update.md R110 to R124): the checks of R111, then the five steps of R112. -/

namespace Sys2Proof.Machine

/-- Step 1: `total_len <- total_len + zext_64(n)`, mod 2^64 (R112, D10). -/
def HasherState.addLength (h : HasherState) (n : Nat) : HasherState :=
  h.setTotalLen (h.totalLen + BitVec.ofNat 64 n)

/-- Step 2, accumulate: append the data at the tail of Pend; no lane changes (R113). -/
def HasherState.accumulate (h : HasherState) (d : List Byte) : HasherState :=
  h.setPend (pendStore h.pend h.pendingLen d) (Fin.ofNat 16 (h.pendingLen + d.length))

/-- Step 3, top-up and drain: if bytes are pending, fill Pend to 16 from the data, run one block-mix step over Pend,
and leave no byte pending; the data from the cursor on remain (R114). -/
def HasherState.topUp (h : HasherState) (d : List Byte) : HasherState × List Byte :=
  if 0 < h.pendingLen.val then
    let full := pendStore h.pend h.pendingLen (d.take (16 - h.pendingLen))
    ((h.setPend full 0).setLanes (blockMix h.lanes (pendBytes full)), d.drop (16 - h.pendingLen))
  else (h, d)

/-- Step 4, bulk blocks straight from the data; Pend is not touched (R115). The loop runs at most ⌊n/16⌋ times (R17). -/
def HasherState.bulk (h : HasherState) (d : List Byte) : HasherState × List Byte :=
  let mixed := bulkBlocks (d.length / 16) h.lanes d
  (h.setLanes mixed.1, mixed.2)

/-- Step 5, stash: the 0..15 bytes that remain go to Pend[0 ..] (R117). -/
def HasherState.stash (h : HasherState) (d : List Byte) : HasherState :=
  h.setPend (pendStore h.pend 0 d) (Fin.ofNat 16 d.length)

/-- Steps 3 to 5 (R112). -/
def HasherState.drain (h : HasherState) (d : List Byte) : HasherState :=
  let topped := h.topUp d
  let mixed := topped.1.bulk topped.2
  mixed.1.stash mixed.2

/-- An accepted UPDATE with the data `d` (R112). -/
def HasherState.absorb (h : HasherState) (d : List Byte) : HasherState :=
  if h.pendingLen.val + d.length < 16 then (h.addLength d.length).accumulate d
  else (h.addLength d.length).drain d

/-- Check 2 of R111, on exact integers: the range does not fit the buffer (R16, R201). -/
def outOfRange (offset count : Int) (bufLen : Nat) : Bool :=
  decide (offset < 0) || decide (count < 0) || decide ((bufLen : Int) < offset + count)

/-- UPDATE(offset, count) (R111, R112, R118). -/
def execUpdate (offset count : Int) (s : State) : Result :=
  if s.updateForbidden then refuseUpdateAfterFinish s
  else if outOfRange offset count s.dbuf.len then raiseInvalidArgument s
  else .next ((s.setHasher (s.hasher.absorb (s.dbuf.slice offset.toNat count.toNat))).respondStatus statusOk)

end Sys2Proof.Machine
end

