-- ==== Sys2Proof/Machine/Issue.lean ====
section
/-! DEFINITION. Issuing one command word to the block: decode it, then run the command or refuse the reserved word
(30_encoding.md R74, R75; 60_exceptions.md R204). -/

namespace Sys2Proof.Machine

/-- The block takes one command word (R62, R240). -/
def issue (w : CmdWord) (s : State) : Result :=
  match decode w with
  | .ok i => exec i s
  | .error _ => refuseReservedEncoding s

/-- One action of the host. -/
def hostEvent (e : HostEvent) (s : State) : Result :=
  match e with
  | .command w => issue w s
  | .present bs => presentBuffer bs s
  | .powerOn => .next (powerOn s)

/-- The host puts one more action before those it has still to take. -/
def State.pushHost (s : State) (e : HostEvent) : State := { s with host := e :: s.host }

end Sys2Proof.Machine
end

