-- ==== Sys2Proof/Machine/Step.lean ====
section
/-! DEFINITION. One step: the host's next action is taken, oldest first, and the block performs it completely
(00_scope.md R7, R19; 20_memory.md R62). With no action to come the block is idle and holds its state
(60_exceptions.md R215, 70_reset_and_hazards.md R231). -/

namespace Sys2Proof.Machine

/-- One step of the machine. -/
def step (s : State) : Host.Outcome State Fault Refusal :=
  match s.host with
  | [] => .next s
  | e :: rest => hostEvent e (s.setHost rest)

/-- `s` with the command word of `nbits` bits `w` as the host's next action, so that `step` runs exactly it. The block
has no instruction memory: its program is the sequence of commands the host issues (R31; log entry 5). -/
def State.withFetchWord (s : State) (nbits w : Nat) : State := s.pushHost (.command (tableWord nbits w))

end Sys2Proof.Machine
end

