-- ==== Sys2Proof/Machine/Assembler.lean ====
section
/-! DEFINITION. The host's side of a program: the assembler syntax of 30_encoding.md R80, the pseudo-commands of R81 to
R83, and the host actions a program stands for. Nothing here is part of the block: it says which events the host's list
holds. -/

namespace Sys2Proof.Machine

/-- The pseudo-commands (R81 to R83). -/
inductive Pseudo where
  /-- `CONSTRUCT [<seed>]` (R81). -/
  | construct (seed : Option Word)
  /-- `UPDATE.ALL` (R82). -/
  | updateAll
  /-- `HASH [<seed>]` (R83). -/
  | hash (seed : Option Word)
  deriving DecidableEq, Repr

/-- The commands a pseudo-command expands to, on a DBUF of `bufLen` bytes in force; an omitted seed is 0 (R81 to R83). -/
def Pseudo.expand (p : Pseudo) (bufLen : Nat) : List Instr :=
  match p with
  | .construct seed => [.reset (seed.getD 0)]
  | .updateAll => [.update 0 bufLen]
  | .hash seed => [.reset (seed.getD 0), .update 0 bufLen, .finish]

/-- One line of a program (R80). -/
inductive AsmLine where
  /-- A command. -/
  | command (i : Instr)
  /-- A pseudo-command. -/
  | pseudo (p : Pseudo)
  /-- The directive `.dbuf`. -/
  | dbuf (bytes : List Byte)
  /-- An empty line or a comment. -/
  | blank
  deriving DecidableEq, Repr

/-- The command words of commands; none where one of them does not fit its fields (R72). -/
def commandEvents (is : List Instr) : Option (List HostEvent) :=
  if is.all Instr.wf then some (is.map fun i => .command (encode i)) else none

/-- The host actions of a program, `bufLen` the length of the DBUF in force before it: a DBUF stays in force until the
next `.dbuf` (R80). -/
def assembleLines (bufLen : Nat) (ls : List AsmLine) : Option (List HostEvent) :=
  match ls with
  | [] => some []
  | .command i :: rest => (commandEvents [i]).bind fun es => (assembleLines bufLen rest).map (es ++ ·)
  | .pseudo p :: rest => (commandEvents (p.expand bufLen)).bind fun es => (assembleLines bufLen rest).map (es ++ ·)
  | .dbuf bs :: rest => (assembleLines bs.length rest).map (.present bs :: ·)
  | .blank :: rest => assembleLines bufLen rest

/-- The double quote character, U+0022. -/
def quoteChar : Char := Char.ofNat 34

/-- The line without its comment: `;` outside quotes starts one (R80). -/
def stripComment (inQuotes : Bool) (cs : List Char) : List Char :=
  match cs with
  | [] => []
  | c :: rest =>
    if c = ';' && !inQuotes then [] else c :: stripComment (if c = quoteChar then !inQuotes else inQuotes) rest

/-- What separates tokens: a space, a tab or a carriage return, so that lines ended by CR LF read alike. DESIGN CHOICE
(log entry 12): R80 names no separators. -/
def isBlank (c : Char) : Bool := c = ' ' || c = '\t' || c = '\r'

/-- The tokens of a line: runs of characters between blanks, each comma a token of its own; `cur` is the token so far,
last character first. The blanks of `isBlank` and the comma as a token are DESIGN CHOICES (log entry 12). -/
def tokens (cur : List Char) (cs : List Char) : List (List Char) :=
  match cs with
  | [] => if cur.isEmpty then [] else [cur.reverse]
  | c :: rest =>
    if isBlank c then (if cur.isEmpty then tokens [] rest else cur.reverse :: tokens [] rest)
    else if c = ',' then (if cur.isEmpty then [','] :: tokens [] rest else cur.reverse :: [','] :: tokens [] rest)
    else tokens (c :: cur) rest

/-- The value of a digit in a base up to 16. -/
def digitOf (base : Nat) (c : Char) : Option Nat :=
  let v := if '0' ≤ c && c ≤ '9' then c.toNat - '0'.toNat
    else if 'a' ≤ c && c ≤ 'f' then c.toNat - 'a'.toNat + 10
    else if 'A' ≤ c && c ≤ 'F' then c.toNat - 'A'.toNat + 10
    else base
  if v < base then some v else none

/-- The digits after `acc`, most significant first. -/
def digitsFrom (base acc : Nat) (cs : List Char) : Option Nat :=
  match cs with
  | [] => some acc
  | c :: rest => (digitOf base c).bind fun v => digitsFrom base (base * acc + v) rest

/-- A non-empty number in a base. -/
def parseNumber (base : Nat) (cs : List Char) : Option Nat :=
  if cs.isEmpty then none else digitsFrom base 0 cs

/-- A seed: a u32 literal, decimal or 0x hexadecimal (R80). -/
def parseSeed (cs : List Char) : Option Word :=
  let n := match cs with
    | '0' :: 'x' :: hex => parseNumber 16 hex
    | _ => parseNumber 10 cs
  n.bind fun n => if n < 2 ^ 32 then some (BitVec.ofNat 32 n) else none

/-- A signed 32-bit decimal literal (R80). -/
def parseSigned (cs : List Char) : Option Int :=
  let z : Option Int := match cs with
    | '-' :: rest => (parseNumber 10 rest).map fun n => -(n : Int)
    | _ => (parseNumber 10 cs).map fun n => (n : Int)
  z.bind fun z => if FitsSint32 z then some z else none

/-- A byte of `.dbuf`: two hexadecimal digits (R80). -/
def parseByte (cs : List Char) : Option Byte :=
  if cs.length = 2 then (parseNumber 16 cs).map (BitVec.ofNat 8) else none

/-- The ASCII bytes of quoted text up to the closing quote, after which only blanks stand (R80). -/
def parseText (cs : List Char) : Option (List Byte) :=
  match cs with
  | [] => none
  | c :: rest =>
    if c = quoteChar then (if (tokens [] rest).isEmpty then some [] else none)
    else if c.toNat < 128 then (parseText rest).map fun bs => BitVec.ofNat 8 c.toNat :: bs
    else none

/-- The operand of `.dbuf`: quoted text, or bytes (R80). -/
def parseDbuf (cs : List Char) : Option (List Byte) :=
  match cs.dropWhile isBlank with
  | [] => some []
  | c :: rest => if c = quoteChar then parseText rest else (tokens [] (c :: rest)).mapM parseByte

/-- A line that is no directive, from its tokens (R80 to R83). -/
def parseTokens (ts : List (List Char)) : Option AsmLine :=
  match ts with
  | [] => some .blank
  | [['F', 'I', 'N', 'I', 'S', 'H']] => some (.command .finish)
  | [['R', 'E', 'S', 'E', 'T'], seed] => (parseSeed seed).map fun s => .command (.reset s)
  | [['U', 'P', 'D', 'A', 'T', 'E'], offset, [','], count] =>
    (parseSigned offset).bind fun o => (parseSigned count).map fun c => .command (.update o c)
  | [['C', 'O', 'N', 'S', 'T', 'R', 'U', 'C', 'T']] => some (.pseudo (.construct none))
  | [['C', 'O', 'N', 'S', 'T', 'R', 'U', 'C', 'T'], seed] => (parseSeed seed).map fun s => .pseudo (.construct (some s))
  | [['U', 'P', 'D', 'A', 'T', 'E', '.', 'A', 'L', 'L']] => some (.pseudo .updateAll)
  | [['H', 'A', 'S', 'H']] => some (.pseudo (.hash none))
  | [['H', 'A', 'S', 'H'], seed] => (parseSeed seed).map fun s => .pseudo (.hash (some s))
  | _ => none

/-- One line of assembly text (R80); none for a line that is not of the syntax. -/
def parseLine (line : List Char) : Option AsmLine :=
  match (stripComment false line).dropWhile isBlank with
  | '.' :: 'd' :: 'b' :: 'u' :: 'f' :: rest =>
    match rest with
    | [] => some (.dbuf [])
    | c :: _ => if isBlank c then (parseDbuf rest).map .dbuf else none
  | cs => parseTokens (tokens [] cs)

/-- The host actions a program's lines stand for, on a DBUF of `bufLen` bytes in force before it (R80). -/
def assemble (bufLen : Nat) (lines : List (List Char)) : Option (List HostEvent) :=
  (lines.mapM parseLine).bind (assembleLines bufLen)

end Sys2Proof.Machine
end

