-- ==== Sys2Proof/Safety.lean ====
section
/-! DEFINITION. The terms the claims use: the valid bytes and observational equivalence (10_state.md R35), stream groups
(20_memory.md R55), the whole-message digest (41_update.md R121, 42_finish.md R141), runs of commands and what a host can
see of them (20_memory.md R53, 70_reset_and_hazards.md R243), and the invariant every step keeps. -/

namespace Sys2Proof.Machine

/-! ### The stream -/

/-- Pend[0 .. pending_len − 1], the valid bytes in stream order (R26). -/
def HasherState.validBytes (h : HasherState) : List Byte := (pendBytes h.pend).take h.pendingLen

/-- Group j of a stream: its bytes 16j .. 16j + 15 (R55). -/
def streamGroup (S : List Byte) (j : Nat) : List Byte := (S.drop (16 * j)).take 16

/-- The lanes after one block-mix step for each complete group of the stream, in stream order (R121). -/
def mixStream (l : Lanes) (S : List Byte) : Lanes :=
  (List.range (S.length / 16)).foldl (fun l j => blockMix l (streamGroup S j)) l

/-- The bytes of the stream from position 16⌊L/16⌋ on, which complete no group (R55, R121). -/
def streamRest (S : List Byte) : List Byte := S.drop (16 * (S.length / 16))

/-- The tail fold over a byte list: words while at least 4 bytes remain, then single bytes (R145, R146). -/
def foldRest (h : Word) (bs : List Byte) : Word :=
  match bs with
  | b0 :: b1 :: b2 :: b3 :: rest => foldRest (foldWord h (le32 b0 b1 b2 b3)) rest
  | rest => rest.foldl foldByte h

/-- The digest of a whole message by the four facts of R121 and steps 1 to 5 of R141, with no FIFO and no chunks: the
length counts mod 2^64 (R24). -/
def messageHash (seed : Word) (S : List Byte) : Word :=
  let start := if 16 ≤ S.length % 2 ^ 64 then mergeLanes (mixStream (initialLanes seed) S) else seed + prime5
  avalanche (foldRest (start + BitVec.ofNat 32 S.length) (streamRest S))

/-! ### Observational equivalence -/

/-- Two hasher states agree on everything but the stale bytes of Pend (R35). -/
abbrev HasherState.ObsEq (h k : HasherState) : Prop :=
  h.seed = k.seed ∧ h.lanes = k.lanes ∧ h.totalLen = k.totalLen ∧ h.pendingLen = k.pendingLen ∧ h.fin = k.fin ∧
    h.validBytes = k.validBytes

/-! ### When UPDATE is accepted -/

/-- Check 1 of R111 passes: fin = 0, or POST_FINISH_UPDATE = Continue. -/
abbrev State.MayUpdate (s : State) : Prop := s.hasher.fin = false ∨ s.params.postFinishUpdate = .continue_

/-- Check 2 of R111 passes, on exact integers. -/
abbrev State.RangeFits (s : State) (offset count : Int) : Prop :=
  0 ≤ offset ∧ 0 ≤ count ∧ offset + count ≤ s.dbuf.len

/-! ### Runs -/

/-- Commands performed one after the other, ending at the first stop (R62, R243). -/
def execAll (is : List Instr) (s : State) : Result :=
  match is with
  | [] => .next s
  | i :: rest =>
    match exec i s with
    | .next t => execAll rest t
    | .fault r => .fault r
    | .refused r => .refused r

/-- UPDATE commands that take consecutive pieces of the buffer, of `ns` bytes, from offset `off` on. -/
def pieces (off : Nat) (ns : List Nat) : List Instr :=
  match ns with
  | [] => []
  | n :: rest => .update off n :: pieces (off + n) rest

/-- What the host sees of one of its actions: responses, or that the run ended in a refusal or a fault (R53, R205). -/
inductive Seen where
  /-- A response; its digest only where it carries one, for FINISH (R53). -/
  | response (status : Byte) (digest : Option Digest)
  /-- The command was refused RESERVED_ENCODING. -/
  | reservedEncoding
  /-- The command was refused UPDATE_AFTER_FINISH. -/
  | updateAfterFinish
  /-- The command has no meaning in the model. -/
  | noMeaning
  /-- The buffer does not fit the port. -/
  | bufferTooLong
  deriving DecidableEq, Repr

/-- Whether a host action is a FINISH command. -/
def HostEvent.isFinish (e : HostEvent) : Bool :=
  match e with
  | .command w => decide (w = 0x000000000000000000000003#96)
  | .present _ => false
  | .powerOn => false

/-- What the host may read of a response to the action `e`: the digest of any response but FINISH's is unspecified and
must not be read (R53). -/
def seenOf (e : HostEvent) (r : Response) : Seen := .response r.status (if e.isFinish then some r.digest else none)

/-- What the host sees when it takes the actions `es`, up to the first stop (R53, R243). -/
def seenRun (es : List HostEvent) (s : State) : List Seen :=
  match es with
  | [] => []
  | e :: rest =>
    match hostEvent e s with
    | .next t => (t.responses.drop s.responses.length).map (seenOf e) ++ seenRun rest t
    | .fault .bufferTooLong => [.bufferTooLong]
    | .refused (.reservedEncoding _) => [.reservedEncoding]
    | .refused (.updateAfterFinish _) => [.updateAfterFinish]
    | .refused _ => [.noMeaning]

/-- A successful run: it starts with the mark not set, every host action is used up with no refusal and no fault, and the
mark is not set at its end (R205, R243). DESIGN CHOICE (log entry 14): R205 and R243 speak of runs of commands, and the
spec does not say whether a run that starts marked and then has a power-on, which clears the mark (R232), is successful;
here it is not. -/
abbrev SuccessfulRun (s t : State) : Prop :=
  s.refused = false ∧ Host.Core.run Sys2Proof.core s.host.length s = .next t ∧ t.host = [] ∧ t.refused = false

/-! ### The invariant -/

/-- Every cell of the buffer is below `buf_len` (R50). -/
def Dbuf.inside (d : Dbuf) : Bool := d.mem.all fun c => decide (c.1 < d.len)

/-- The machine's invariant: pending_len = total_len mod 16 (R29); the buffer is in canonical form, lists no byte
outside itself, and fits the port (R50). -/
abbrev State.Inv (s : State) : Prop :=
  s.hasher.pendingLen.val = s.hasher.totalLen.toNat % 16 ∧ s.dbuf.mem.wf = true ∧ s.dbuf.inside = true ∧
    s.dbuf.len ≤ s.params.maxBufLen

end Sys2Proof.Machine
end

