-- ==== Sys2Proof/Certificates/Slice0/Obligations.lean ====
section
/-! DEFINITION. The statements for the provers. Each docstring names the rules of spec/ it formalises. An unspecified
digest (20_memory.md R53) and the counter of free values (log entry 2) stand under an existential quantifier: no
statement rests on their values. -/

open Sys2Proof Sys2Proof.Machine

/-! ### The primitives -/

/-- R12: `rotl32` is the circular left rotation, for every count from 1 to 31. -/
def Obligations.RotationIsCircular : Prop :=
  ∀ (x : Word) (r : Nat), 1 ≤ r → r ≤ 31 →
    rotl32 x r = x.rotateLeft r ∧
      ∀ i, i < 32 → (rotl32 x r).getLsbD i = x.getLsbD ((i + (32 - r)) % 32)

/-- R13: `LE32` has b0 as its least significant byte. -/
def Obligations.WordAssemblyIsLittleEndian : Prop :=
  ∀ b0 b1 b2 b3 : Byte,
    (le32 b0 b1 b2 b3).toNat = b0.toNat + 2 ^ 8 * b1.toNat + 2 ^ 16 * b2.toNat + 2 ^ 24 * b3.toNat

/-- R16: UPDATE's operands are the two's-complement readings of its two fields, and the bounds test of R111 is on exact
integers. -/
def Obligations.SignedOperandsAreExact : Prop :=
  (∀ x : Word, sint32 x = if x.getLsbD 31 then (x.toNat : Int) - 2 ^ 32 else (x.toNat : Int)) ∧
    (∀ (w : CmdWord) (offset count : Int), decode w = .ok (.update offset count) →
      offset = (w.extractLsb' 32 32).toInt ∧ count = (w.extractLsb' 64 32).toInt) ∧
    ∀ (offset count : Int) (n : Nat),
      outOfRange offset count n = false ↔ 0 ≤ offset ∧ 0 ≤ count ∧ offset + count ≤ n

/-- R116, R22, R123: a block-mix step rewrites each lane from its own value and its own word of the group. -/
def Obligations.BlockMixRoundsEachLane : Prop :=
  ∀ (l : Lanes) (b0 b1 b2 b3 b4 b5 b6 b7 b8 b9 b10 b11 b12 b13 b14 b15 : Byte),
    blockMix l [b0, b1, b2, b3, b4, b5, b6, b7, b8, b9, b10, b11, b12, b13, b14, b15] = {
      v1 := (l.v1 + le32 b0 b1 b2 b3 * 2246822519#32).rotateLeft 13 * 2654435761#32
      v2 := (l.v2 + le32 b4 b5 b6 b7 * 2246822519#32).rotateLeft 13 * 2654435761#32
      v3 := (l.v3 + le32 b8 b9 b10 b11 * 2246822519#32).rotateLeft 13 * 2654435761#32
      v4 := (l.v4 + le32 b12 b13 b14 b15 * 2246822519#32).rotateLeft 13 * 2654435761#32 }

/-- R153: each avalanche operation is a bijection, so step 5 is one; avalanche(0) = 0, and distinct h before step 5 give
distinct digests. -/
def Obligations.AvalancheIsBijective : Prop :=
  (∀ k, 1 ≤ k → Function.Bijective (xorShift k)) ∧
    Function.Bijective (fun h : Word => h * prime2) ∧ Function.Bijective (fun h : Word => h * prime3) ∧
    Function.Bijective avalanche ∧ avalanche 0 = 0 ∧
    ∀ x y : Word, x ≠ y → Digest.ofWord (avalanche x) ≠ Digest.ofWord (avalanche y)

/-! ### Decoding and encoding -/

/-- R84: words written out from the fields of R71 decode to the commands they stand for (R74). -/
def Obligations.ExampleWordsDecode : Prop :=
  decode 0x000000000000000000000001#96 = .ok (.reset 0) ∧
    decode 0x000000001234567800000001#96 = .ok (.reset 0x12345678#32) ∧
    decode 0x00000000FFFFFFFF00000001#96 = .ok (.reset 0xFFFFFFFF#32) ∧
    decode 0x000000100000000000000002#96 = .ok (.update 0 16) ∧
    decode 0x000000000000000300000002#96 = .ok (.update 3 0) ∧
    decode 0x00000004FFFFFFFF00000002#96 = .ok (.update (-1) 4) ∧
    decode 0xFFFFFFFF0000000000000002#96 = .ok (.update 0 (-1)) ∧
    decode 0x000000000000000000000003#96 = .ok .finish ∧
    decode 0x000000000000000000000000#96 = .error (.reservedOpcode 0x00#8) ∧
    decode 0x000000000000000000000103#96 = .error .reservedBits

/-- Decoding an encoded well-formed command gives it back, with every operand at every value (R71, R72, R74), from the
word and from its bytes (R79). -/
def Obligations.DecodeOfEncode : Prop :=
  ∀ i : Instr, i.WellFormed → decode (encode i) = .ok i ∧ decodeBytes (encodeBytes i) = .ok i

/-- A word that decodes is the encoding of its command, which is well-formed: no bit of the word is dropped (R74, R76). -/
def Obligations.EncodeOfDecode : Prop :=
  ∀ (w : CmdWord) (i : Instr), decode w = .ok i → encode i = w ∧ i.WellFormed

/-- R74: the three match and mask pairs of the opcode table are exactly the words of the three commands. -/
def Obligations.OpcodeTableMatchesDecode : Prop :=
  ∀ w : CmdWord,
    (w &&& 0xFFFFFFFF00000000FFFFFFFF#96 = 0x000000000000000000000001#96 ↔
      ∃ seed, decode w = .ok (.reset seed)) ∧
    (w &&& 0x0000000000000000FFFFFFFF#96 = 0x000000000000000000000002#96 ↔
      ∃ offset count, decode w = .ok (.update offset count)) ∧
    (w &&& 0xFFFFFFFFFFFFFFFFFFFFFFFF#96 = 0x000000000000000000000003#96 ↔ decode w = .ok .finish)

/-- R79: a command word carried as bytes is 12 bytes, byte k its bits [8k + 7 : 8k]; other lengths are no command. -/
def Obligations.WireIsTwelveBytesLittleEndian : Prop :=
  (∀ w : CmdWord, w.toWire.length = 12 ∧ (∀ k, k < 12 → w.toWire.getD k 0 = w.extractLsb' (8 * k) 8) ∧
      decodeBytes w.toWire = decode w) ∧
    ∀ bs : List Byte, bs.length ≠ 12 → decodeBytes bs = .error (.wireLength bs.length)

/-! ### The step -/

/-- A step runs the decoded command: when the host's next action is a command word that decodes to `i`, the step is
`exec i` on the machine with that action taken (R62, R240). -/
def Obligations.StepRunsDecodedCommand : Prop :=
  ∀ (s : State) (w : CmdWord) (rest : List HostEvent) (i : Instr),
    s.host = .command w :: rest → decode w = .ok i → step s = exec i { s with host := rest }

/-- R215, R231: with no action of the host to come the block is idle and holds its state (the empty list of host actions
is the model's, log entry 5). -/
def Obligations.IdleBlockHoldsItsState : Prop := ∀ s : State, s.host = [] → step s = .next s

/-- R50: a presented buffer is in force, byte i at index i and buf_len its length, and nothing else changes; a buffer
longer than MAX_BUF_LEN stops the machine (the fault is the model's, log entry 7). -/
def Obligations.PresentedBufferIsInForce : Prop :=
  ∀ (s : State) (bs : List Byte) (rest : List HostEvent), s.host = .present bs :: rest →
    (bs.length ≤ s.params.maxBufLen →
      ∃ m : Memory, step s = .next { s with dbuf := { len := bs.length, mem := m }, host := rest } ∧
        (∀ i, i < bs.length → m.read i = bs.getD i 0) ∧ m.wf = true) ∧
    (s.params.maxBufLen < bs.length → step s = .fault .bufferTooLong)

/-- R230, R232: power-on puts the block in the INIT configuration of RESET_SEED, clears the model's mark, and leaves the
parameters as they were; RESET_SEED is 0 by default (R8). That it also leaves the buffer in force (log entry 3) and the
list of responses (log entry 4) as they were is the model's DESIGN CHOICE, which R230 does not say; the free values and
their counter (log entry 2) and the list of host actions (log entry 5) are the model's too. -/
def Obligations.PowerOnLoadsResetSeed : Prop :=
  Config.defaults.resetSeed = 0 ∧
    ∀ (s : State) (rest : List HostEvent), s.host = .powerOn :: rest →
      ∃ (p : Pend) (n : Nat), step s = .next { s with
        hasher := {
          seed := s.params.resetSeed
          lanes := {
            v1 := s.params.resetSeed + 2654435761#32 + 2246822519#32
            v2 := s.params.resetSeed + 2246822519#32
            v3 := s.params.resetSeed
            v4 := s.params.resetSeed - 2654435761#32 }
          totalLen := 0
          pend := p
          pendingLen := 0
          fin := false }
        refused := false
        host := rest
        freeCount := n }

/-- R37, R8: the values after power-on with the default parameters. -/
def Obligations.ResetStateHoldsInitValues : Prop :=
  State.reset.hasher.seed = 0x00000000#32 ∧
    State.reset.hasher.lanes = {
      v1 := 0x24234428#32, v2 := 0x85EBCA77#32, v3 := 0x00000000#32, v4 := 0x61C8864F#32 } ∧
    State.reset.hasher.totalLen = 0 ∧ State.reset.hasher.pendingLen = 0 ∧ State.reset.hasher.fin = false ∧
    State.reset.refused = false ∧
    State.reset.params = { maxBufLen := 2147483647, resetSeed := 0, postFinishUpdate := .refuse }

/-- R75, R205: a step refuses RESERVED_ENCODING exactly for the words R75 lists, and leaves the mark set, HasherState
unchanged and no response. -/
def Obligations.ReservedWordsAreRefused : Prop :=
  ∀ (s : State) (w : CmdWord) (rest : List HostEvent), s.host = .command w :: rest →
    ((w.extractLsb' 8 24 ≠ 0 ∨
        (w.extractLsb' 0 8 ≠ 0x01#8 ∧ w.extractLsb' 0 8 ≠ 0x02#8 ∧ w.extractLsb' 0 8 ≠ 0x03#8) ∨
        (w.extractLsb' 0 8 = 0x01#8 ∧ w.extractLsb' 64 32 ≠ 0) ∨
        (w.extractLsb' 0 8 = 0x03#8 ∧ (w.extractLsb' 32 32 ≠ 0 ∨ w.extractLsb' 64 32 ≠ 0))) ↔
      ∃ after, step s = .refused (.reservedEncoding after)) ∧
    ∀ after, step s = .refused (.reservedEncoding after) → after = { s with host := rest, refused := true }

/-- R34, R205: the mark is false at reset; a step that answers a next state leaves it as it was, but for a power-on,
which clears it; a refusal is one of the two reasons, sets it, leaves HasherState unchanged and gives no response. -/
def Obligations.RefusedMarkIsSticky : Prop :=
  State.reset.refused = false ∧
    (∀ s t : State, step s = .next t →
      t.refused = s.refused ∨ ∃ rest, s.host = .powerOn :: rest ∧ t.refused = false) ∧
    ∀ (s : State) (r : Refusal), step s = .refused r →
      ∃ after : State, (r = .reservedEncoding after ∨ r = .updateAfterFinish after) ∧
        after.refused = true ∧ after.hasher = s.hasher ∧ after.responses = s.responses

/-- No step writes a parameter (R8; log entry 6: the parameters stand in the state). -/
def Obligations.ParametersAreFixed : Prop := ∀ s t : State, step s = .next t → t.params = s.params

/-! ### RESET -/

/-- R101, R102: RESET always succeeds; it loads the seed and the lanes, zeroes total_len, pending_len and fin, writes no
byte of Pend, leaves the refused mark and everything else as it was, and answers OK. -/
def Obligations.ResetLoadsInitConfiguration : Prop :=
  ∀ (seed : Word) (s : State), ∃ (d : Digest) (n : Nat),
    exec (.reset seed) s = .next { s with
      hasher := {
        seed := seed
        lanes := {
          v1 := seed + 2654435761#32 + 2246822519#32
          v2 := seed + 2246822519#32
          v3 := seed
          v4 := seed - 2654435761#32 }
        totalLen := 0
        pend := s.hasher.pend
        pendingLen := 0
        fin := false }
      responses := s.responses ++ [{ status := 0x00#8, digest := d }]
      freeCount := n }

/-- R104: after RESET(seed), whatever came before, every later sequence of commands and buffers is answered as on a
block just out of power-on with RESET_SEED = seed; only the sticky mark is not reset. -/
def Obligations.ResetIsIndistinguishableFromPowerOn : Prop :=
  ∀ (s u : State) (seed : Word) (es : List HostEvent),
    u.params = { s.params with resetSeed := seed } → u.dbuf = s.dbuf → (∀ e ∈ es, e ≠ .powerOn) →
      ∃ t, exec (.reset seed) s = .next t ∧ seenRun es t = seenRun es (powerOn u) ∧ t.refused = s.refused

/-- R81: on a block just out of power-on, CONSTRUCT with RESET_SEED changes nothing that can be observed. -/
def Obligations.ConstructAfterPowerOnChangesNothing : Prop :=
  ∀ (s : State) (n : Nat), ∃ t,
    execAll ((Pseudo.construct (some s.params.resetSeed)).expand n) (powerOn s) = .next t ∧
      t.hasher.ObsEq (powerOn s).hasher

/-! ### UPDATE -/

/-- R111, R205, R246: under Refuse an UPDATE after FINISH is refused, whatever its operands, before the bounds check
(R204). -/
def Obligations.UpdateAfterFinishIsRefused : Prop :=
  ∀ (s : State) (offset count : Int), s.hasher.fin = true → s.params.postFinishUpdate = .refuse →
    exec (.update offset count) s = .refused (.updateAfterFinish { s with refused := true })

/-- R201, R203: a range that does not fit the buffer raises InvalidArgument, status 0x01, and every state element keeps
its value. -/
def Obligations.BadRangeRaisesInvalidArgument : Prop :=
  ∀ (s : State) (offset count : Int), s.MayUpdate →
    (offset < 0 ∨ count < 0 ∨ (s.dbuf.len : Int) < offset + count) →
      ∃ (d : Digest) (n : Nat), exec (.update offset count) s = .next { s with
        responses := s.responses ++ [{ status := 0x01#8, digest := d }]
        freeCount := n }

/-- R113: an accepted UPDATE with pending_len + count < 16 appends its bytes to Pend, counts them, and changes no lane
and nothing else. -/
def Obligations.ShortUpdateAccumulates : Prop :=
  ∀ (s : State) (offset count : Int), s.MayUpdate → s.RangeFits offset count →
    (s.hasher.pendingLen.val : Int) + count < 16 →
      ∃ (p : Pend) (k : Fin 16) (d : Digest) (n : Nat),
        exec (.update offset count) s = .next { s with
          hasher := { s.hasher with
            totalLen := s.hasher.totalLen + BitVec.ofInt 64 count, pend := p, pendingLen := k }
          responses := s.responses ++ [{ status := 0x00#8, digest := d }]
          freeCount := n } ∧
        (k.val : Int) = s.hasher.pendingLen.val + count ∧
        ∀ i, i < 16 → p.toList.getD i 0 =
          if s.hasher.pendingLen.val ≤ i ∧ (i : Int) < s.hasher.pendingLen.val + count then
            s.dbuf.mem.read (offset.toNat + (i - s.hasher.pendingLen.val))
          else s.hasher.pend.toList.getD i 0

/-- R112, R124, R55: an accepted UPDATE, whatever its length, counts its bytes mod 2^64, mixes each complete 16-byte
group of the pending bytes followed by the data once and in stream order, keeps the rest as the valid bytes, leaves
seed and fin (R118) and everything outside the hasher as they were, and answers OK. -/
def Obligations.UpdateMixesCompleteGroups : Prop :=
  ∀ (s : State) (offset count : Int), s.MayUpdate → s.RangeFits offset count →
    ∃ (p : Pend) (k : Fin 16) (d : Digest) (n : Nat),
      exec (.update offset count) s = .next { s with
        hasher := { s.hasher with
          lanes := mixStream s.hasher.lanes (s.hasher.validBytes ++ s.dbuf.slice offset.toNat count.toNat)
          totalLen := s.hasher.totalLen + BitVec.ofInt 64 count
          pend := p
          pendingLen := k }
        responses := s.responses ++ [{ status := 0x00#8, digest := d }]
        freeCount := n } ∧
      k.val = (s.hasher.pendingLen.val + count.toNat) % 16 ∧
      p.toList.take k.val = streamRest (s.hasher.validBytes ++ s.dbuf.slice offset.toNat count.toNat)

/-- R114, R115, R117: every byte of Pend after an accepted UPDATE that completes a group: the stash at its start, then
what the top-up wrote if bytes were pending, and else what stood there. -/
def Obligations.LongUpdateWritesPend : Prop :=
  ∀ (s : State) (offset count : Int), s.MayUpdate → s.RangeFits offset count →
    16 ≤ s.hasher.pendingLen.val + count.toNat →
      ∃ t, exec (.update offset count) s = .next t ∧
        ∀ i, i < 16 → t.hasher.pend.toList.getD i 0 =
          if i < (s.hasher.pendingLen.val + count.toNat) % 16 then
            s.dbuf.mem.read (offset.toNat + (count.toNat - (s.hasher.pendingLen.val + count.toNat) % 16 + i))
          else if 0 < s.hasher.pendingLen.val ∧ s.hasher.pendingLen.val ≤ i then
            s.dbuf.mem.read (offset.toNat + (i - s.hasher.pendingLen.val))
          else s.hasher.pend.toList.getD i 0

/-- R120: an accepted UPDATE of no bytes, also at offset = buf_len, changes no state element. -/
def Obligations.EmptyUpdateChangesNothing : Prop :=
  ∀ (s : State) (offset : Int), s.MayUpdate → 0 ≤ offset → offset ≤ s.dbuf.len →
    ∃ (d : Digest) (n : Nat), exec (.update offset 0) s = .next { s with
      responses := s.responses ++ [{ status := 0x00#8, digest := d }]
      freeCount := n }

/-- R120: with 15 bytes pending, one byte triggers exactly one block-mix step, over Pend with that byte last, and leaves
pending_len = 0. -/
def Obligations.SixteenthByteDrainsPend : Prop :=
  ∀ (s : State) (offset : Int), s.MayUpdate → s.RangeFits offset 1 → s.hasher.pendingLen = 15 →
    ∃ t, exec (.update offset 1) s = .next t ∧
      t.hasher.lanes = blockMix s.hasher.lanes (s.hasher.pend.toList.take 15 ++ [s.dbuf.mem.read offset.toNat]) ∧
      t.hasher.pendingLen = 0 ∧
      t.hasher.pend.toList = s.hasher.pend.toList.take 15 ++ [s.dbuf.mem.read offset.toNat] ∧
      t.hasher.totalLen = s.hasher.totalLen + 1

/-- R52, R58: an accepted UPDATE reads no byte of the buffer outside [offset, offset + count), and one that raises
InvalidArgument or is refused reads none: with other bytes there, the outcome is the same but for those bytes. -/
def Obligations.UpdateReadsOnlyItsRange : Prop :=
  ∀ (s : State) (m : Memory) (offset count : Int),
    (s.MayUpdate → s.RangeFits offset count →
      ∀ a : Nat, offset ≤ a → (a : Int) < offset + count → m.read a = s.dbuf.mem.read a) →
    (∀ t, exec (.update offset count) s = .next t →
      exec (.update offset count) (s.setDbuf { len := s.dbuf.len, mem := m }) =
        .next (t.setDbuf { len := s.dbuf.len, mem := m })) ∧
    (∀ after, exec (.update offset count) s = .refused (.updateAfterFinish after) →
      exec (.update offset count) (s.setDbuf { len := s.dbuf.len, mem := m }) =
        .refused (.updateAfterFinish (after.setDbuf { len := s.dbuf.len, mem := m })))

/-- R82: UPDATE.ALL never raises InvalidArgument. -/
def Obligations.UpdateAllIsAlwaysInRange : Prop :=
  ∀ s : State, s.MayUpdate →
    ∃ (t : State) (d : Digest), execAll (Pseudo.updateAll.expand s.dbuf.len) s = .next t ∧
      t.responses = s.responses ++ [{ status := 0x00#8, digest := d }]

/-- R121: feeding data in pieces, from any hasher state, is observationally equivalent to feeding it at once. -/
def Obligations.AbsorbingPiecesEqualsAbsorbingWhole : Prop :=
  ∀ (h : HasherState) (ds : List (List Byte)),
    (ds.foldl HasherState.absorb h).ObsEq (h.absorb ds.flatten)

/-- R121: for every seed, buffer and split of a range of it into consecutive pieces, RESET and one UPDATE a piece
complete in a state observationally equivalent to RESET and one UPDATE of the whole range, and every later sequence of
host actions is answered alike. -/
def Obligations.ChunkingInvariance : Prop :=
  ∀ (s : State) (seed : Word) (off : Nat) (ns : List Nat) (es : List HostEvent),
    off + ns.sum ≤ s.dbuf.len →
      ∃ t u, execAll (.reset seed :: pieces off ns) s = .next t ∧
        execAll [.reset seed, .update off ns.sum] s = .next u ∧
        t.hasher.ObsEq u.hasher ∧ seenRun es t = seenRun es u

/-- R28, R29, R121: after RESET and UPDATEs of consecutive pieces, the state is the four facts of the stream: its length
mod 2^64, its length mod 16, its lanes, and its unmixed rest in Pend. -/
def Obligations.StateFollowsTheStream : Prop :=
  ∀ (s : State) (seed : Word) (off : Nat) (ns : List Nat), off + ns.sum ≤ s.dbuf.len →
    ∃ t, execAll (.reset seed :: pieces off ns) s = .next t ∧
      t.hasher.totalLen = BitVec.ofNat 64 ns.sum ∧ t.hasher.pendingLen.val = ns.sum % 16 ∧
      t.hasher.validBytes = streamRest (s.dbuf.slice off ns.sum) ∧
      t.hasher.lanes = mixStream (initialLanes seed) (s.dbuf.slice off ns.sum) ∧
      t.hasher.seed = seed ∧ t.hasher.fin = false

/-! ### FINISH -/

/-- R141 to R149: FINISH completes in every state; its digest is the merge or seed + PRIME5, the low 32 bits of
total_len, the tail fold over the valid bytes and the avalanche, sent little-endian with status OK; it sets fin and
changes nothing else. The fold steps of `foldRest` are those of `TailStepsFoldWordsAndBytes`. -/
def Obligations.FinishReturnsTheDigest : Prop :=
  ∀ s : State,
    let h0 : Word :=
      if 16 ≤ s.hasher.totalLen.toNat then
        s.hasher.lanes.v1.rotateLeft 1 + s.hasher.lanes.v2.rotateLeft 7 + s.hasher.lanes.v3.rotateLeft 12 +
          s.hasher.lanes.v4.rotateLeft 18
      else s.hasher.seed + 374761393#32
    let h1 := foldRest (h0 + s.hasher.totalLen.setWidth 32) s.hasher.validBytes
    let h2 := (h1 ^^^ (h1 >>> 15)) * 2246822519#32
    let h3 := (h2 ^^^ (h2 >>> 13)) * 3266489917#32
    let h4 := h3 ^^^ (h3 >>> 16)
    exec .finish s = .next { s with
      hasher := { s.hasher with fin := true }
      responses := s.responses ++ [{
        status := 0x00#8
        digest := {
          d0 := h4.extractLsb' 0 8, d1 := h4.extractLsb' 8 8, d2 := h4.extractLsb' 16 8, d3 := h4.extractLsb' 24 8 } }] }

/-- R145, R146: the tail fold takes a little-endian word while four bytes remain, then single bytes, with the constants
and rotations of those rules. -/
def Obligations.TailStepsFoldWordsAndBytes : Prop :=
  (∀ (h : Word) (b0 b1 b2 b3 : Byte) (rest : List Byte), foldRest h (b0 :: b1 :: b2 :: b3 :: rest) =
      foldRest ((h + le32 b0 b1 b2 b3 * 3266489917#32).rotateLeft 17 * 668265263#32) rest) ∧
    (∀ (h : Word) (b : Byte) (rest : List Byte), rest.length < 3 → foldRest h (b :: rest) =
      foldRest ((h + b.setWidth 32 * 374761393#32).rotateLeft 11 * 2654435761#32) rest) ∧
    ∀ h : Word, foldRest h [] = h

/-- R151: FINISH after FINISH returns the same digest, under both values of POST_FINISH_UPDATE. -/
def Obligations.FinishRepeatsItsDigest : Prop :=
  ∀ s : State, ∃ (t u : State) (r : Response), exec .finish s = .next t ∧ exec .finish t = .next u ∧
    t.responses = s.responses ++ [r] ∧ u.responses = t.responses ++ [r] ∧ u.hasher = t.hasher

/-- R142, R144: under 16 bytes the digest does not depend on the lanes; from 16 bytes on it depends neither on the seed
nor on bits 63:32 of total_len. -/
def Obligations.DigestIgnoresUnusedInputs : Prop :=
  (∀ (h : HasherState) (l : Lanes), h.totalLen.toNat < 16 → ({ h with lanes := l }).finalHash = h.finalHash) ∧
    ∀ (h : HasherState) (x : Word) (n : Len), 16 ≤ h.totalLen.toNat → 16 ≤ n.toNat →
      n.setWidth 32 = h.totalLen.setWidth 32 → ({ h with seed := x, totalLen := n }).finalHash = h.finalHash

/-- R83, R121, R141: RESET, UPDATEs of consecutive pieces and FINISH complete, and FINISH answers the digest of the
whole message. -/
def Obligations.DigestOfMessageInPieces : Prop :=
  ∀ (s : State) (seed : Word) (off : Nat) (ns : List Nat), off + ns.sum ≤ s.dbuf.len →
    ∃ (t : State) (rs : List Response), execAll (.reset seed :: (pieces off ns ++ [.finish])) s = .next t ∧
      t.responses = s.responses ++ rs ++
        [{ status := 0x00#8, digest := Digest.ofWord (messageHash seed (s.dbuf.slice off ns.sum)) }] ∧
      rs.length = ns.length + 1 ∧ ∀ r ∈ rs, r.status = 0x00#8

/-- R83: HASH answers, with its third response, the digest of the buffer in force; its seed is 0 when omitted. -/
def Obligations.HashPseudoCommandReturnsDigest : Prop :=
  ∀ (s : State) (o : Option Word), ∃ (t : State) (r1 r2 : Response),
    execAll ((Pseudo.hash o).expand s.dbuf.len) s = .next t ∧
      t.responses = s.responses ++ [r1, r2,
        { status := 0x00#8, digest := Digest.ofWord (messageHash (o.getD 0) (s.dbuf.slice 0 s.dbuf.len)) }]

/-! ### The whole machine -/

/-- R53, R201, R202: a command that answers a next state gives exactly one response, OK or INVALID_ARGUMENT, and only
UPDATE gives INVALID_ARGUMENT; no command faults, and only UPDATE is refused. -/
def Obligations.EveryCommandGivesOneResponse : Prop :=
  ∀ (i : Instr) (s : State),
    (∀ t, exec i s = .next t → ∃ r : Response, t.responses = s.responses ++ [r] ∧
      (r.status = 0x00#8 ∨ (r.status = 0x01#8 ∧ ∃ offset count, i = .update offset count))) ∧
    (∀ f, exec i s ≠ .fault f) ∧
    ∀ r, exec i s = .refused r → ∃ offset count, i = .update offset count

/-- R20, R23, R24, R30, R149: which command writes which element: seed only RESET; total_len only RESET and UPDATE; fin
set only by FINISH and cleared only by RESET; lanes, Pend and pending_len untouched by FINISH; and no command writes the
buffer (R14), the parameters or the mark. -/
def Obligations.ElementsAreWrittenByTheirCommands : Prop :=
  ∀ (i : Instr) (s t : State), exec i s = .next t →
    (match i with
      | .reset seed => t.hasher.seed = seed ∧ t.hasher.totalLen = 0 ∧ t.hasher.fin = false ∧
          t.hasher.pend = s.hasher.pend
      | .update _ _ => t.hasher.seed = s.hasher.seed ∧ t.hasher.fin = s.hasher.fin
      | .finish => t.hasher.seed = s.hasher.seed ∧ t.hasher.lanes = s.hasher.lanes ∧
          t.hasher.totalLen = s.hasher.totalLen ∧ t.hasher.pend = s.hasher.pend ∧
          t.hasher.pendingLen = s.hasher.pendingLen ∧ t.hasher.fin = true) ∧
    t.dbuf = s.dbuf ∧ (∀ a, t.dbuf.mem.read a = s.dbuf.mem.read a) ∧ t.params = s.params ∧
    t.refused = s.refused ∧ t.host = s.host

/-- R35: observationally equivalent states give the same response to every later sequence of host actions, whatever
their stale bytes hold. -/
def Obligations.StaleBytesAreNeverSeen : Prop :=
  ∀ (s t : State) (es : List HostEvent), s.hasher.ObsEq t.hasher → s.dbuf = t.dbuf → s.params = t.params →
    seenRun es s = seenRun es t

/-- R62: a run of queued commands is the composition of their meanings in that order. -/
def Obligations.QueuedCommandsComposeInOrder : Prop :=
  ∀ (is : List Instr) (s t : State), (∀ i ∈ is, i.WellFormed) →
    s.host = is.map (fun i => .command (encode i)) →
      (Host.Core.run Sys2Proof.core is.length s = .next t ↔ execAll is { s with host := [] } = .next t)

/-- R205, R243: a run that started unmarked and met no refusal ends unmarked: the refused mark and the responses of a
completed run never stand together. -/
def Obligations.CompletedRunIsUnmarked : Prop :=
  ∀ (n : Nat) (s t : State), s.refused = false → Host.Core.run Sys2Proof.core n s = .next t → t.refused = false

/-- The invariant holds after reset (R29, R37, R50). -/
def Obligations.ResetStateMeetsInvariant : Prop := State.reset.Inv

/-- Every step keeps the invariant: pending_len = total_len mod 16 also past 2^64 (R29), and the buffer is in canonical
form inside the port's limit (R50). -/
def Obligations.StepKeepsInvariant : Prop := ∀ s t : State, s.Inv → step s = .next t → t.Inv
end

