-- ==== Sys2Proof/Laws/Decode.lean ====
section
/-! SUPPORT. The command word: the signed field, the fields of an encoded word, and the wire (30_encoding.md R71, R79). -/

namespace Sys2Proof

/-- `sint32` is the two's-complement value of the field (R16). -/
theorem sint32_eq_toInt (x : Word) : sint32 x = x.toInt := by
  rw [sint32, BitVec.toInt_eq_msb_cond, BitVec.msb_eq_getLsbD_last]
  norm_num

theorem sint32_fits (x : Word) : FitsSint32 (sint32 x) := by
  rw [sint32_eq_toInt]
  have h1 := BitVec.le_toInt x
  have h2 := BitVec.toInt_lt (x := x)
  constructor <;> omega

/-- A signed integer in range is what its 32-bit field denotes. -/
theorem sint32_ofInt {z : Int} (h : FitsSint32 z) : sint32 (BitVec.ofInt 32 z) = z := by
  rw [sint32_eq_toInt, BitVec.toInt_ofInt]
  apply Int.bmod_eq_of_le <;> omega

theorem ofInt_sint32 (x : Word) : BitVec.ofInt 32 (sint32 x) = x := by rw [sint32_eq_toInt, BitVec.ofInt_toInt]

/-- The Bool check is the predicate. -/
theorem Instr.wf_iff (i : Instr) : i.wf = true ↔ i.WellFormed := by
  cases i <;> simp [Instr.wf, Instr.WellFormed, FitsSint32]

/-- The bits of an encoded word (R71). -/
theorem CmdWord.ofFields_getLsbD (b a : Word) (op : Byte) (i : Nat) :
    (CmdWord.ofFields b a op).getLsbD i =
      if i < 8 then op.getLsbD i else if i < 32 then false else if i < 64 then a.getLsbD (i - 32)
      else b.getLsbD (i - 64) := by
  have h : (CmdWord.ofFields b a op).getLsbD i = BitVec.getLsbD (b ++ a ++ 0#24 ++ op) i := rfl
  rw [h]
  simp only [BitVec.getLsbD_append, BitVec.getLsbD_zero]
  split_ifs <;> first | rfl | omega

theorem CmdWord.ofFields_op (b a : Word) (op : Byte) : (CmdWord.ofFields b a op).op = op := by
  apply BitVec.eq_of_getLsbD_eq
  intro i hi
  rw [CmdWord.op, BitVec.getLsbD_extractLsb', CmdWord.ofFields_getLsbD, if_pos (by omega)]
  simp [hi]

theorem CmdWord.ofFields_rsv (b a : Word) (op : Byte) : (CmdWord.ofFields b a op).rsv = 0 := by
  apply BitVec.eq_of_getLsbD_eq
  intro i hi
  rw [CmdWord.rsv, BitVec.getLsbD_extractLsb', CmdWord.ofFields_getLsbD, if_neg (by omega), if_pos (by omega)]
  simp

theorem CmdWord.ofFields_a (b a : Word) (op : Byte) : (CmdWord.ofFields b a op).a = a := by
  apply BitVec.eq_of_getLsbD_eq
  intro i hi
  rw [CmdWord.a, BitVec.getLsbD_extractLsb', CmdWord.ofFields_getLsbD, if_neg (by omega), if_neg (by omega),
    if_pos (by omega)]
  simp [hi]

theorem CmdWord.ofFields_b (b a : Word) (op : Byte) : (CmdWord.ofFields b a op).b = b := by
  apply BitVec.eq_of_getLsbD_eq
  intro i hi
  rw [CmdWord.b, BitVec.getLsbD_extractLsb', CmdWord.ofFields_getLsbD, if_neg (by omega), if_neg (by omega),
    if_neg (by omega)]
  simp [hi]

/-- A word whose RSV is zero is its three other fields (R71). -/
theorem CmdWord.ofFields_eq {w : CmdWord} (h : w.rsv = 0) : CmdWord.ofFields w.b w.a w.op = w := by
  apply BitVec.eq_of_getLsbD_eq
  intro i hi
  rw [CmdWord.ofFields_getLsbD]
  simp only [CmdWord.op, CmdWord.a, CmdWord.b, BitVec.getLsbD_extractLsb']
  split_ifs with h1 h2 h3
  · simp [h1]
  · have : w.rsv.getLsbD (i - 8) = false := by rw [h]; simp
    rw [CmdWord.rsv, BitVec.getLsbD_extractLsb', show 8 + (i - 8) = i by omega] at this
    simpa [show i - 8 < 24 by omega] using this.symm
  · rw [show 32 + (i - 32) = i by omega]; simp [show i - 32 < 32 by omega]
  · rw [show 64 + (i - 64) = i by omega]; simp [show i - 64 < 32 by omega]

/-- Bit i of a word carried as bytes is bit i mod 8 of byte i / 8 (R79). -/
theorem CmdWord.ofWire_getLsbD (bs : List Byte) (i : Nat) (hi : i < 96) :
    (CmdWord.ofWire bs).getLsbD i = (bs.getD (i / 8) 0).getLsbD (i % 8) := by
  induction bs generalizing i with
  | nil => simp [CmdWord.ofWire]
  | cons b bs ih =>
    rw [CmdWord.ofWire, BitVec.getLsbD_or, BitVec.getLsbD_shiftLeft, BitVec.getLsbD_setWidth]
    by_cases h8 : i < 8
    · simp [h8, hi, show i / 8 = 0 by omega, show i % 8 = i by omega]
    · rw [ih _ (by omega), show i / 8 = (i - 8) / 8 + 1 by omega, List.getD_cons_succ,
        show (i - 8) % 8 = i % 8 by omega, BitVec.getLsbD_of_ge b i (by omega)]
      simp [h8, hi]

theorem CmdWord.toWire_length (w : CmdWord) : w.toWire.length = 12 := by simp [CmdWord.toWire]

/-- The wire carries the whole word (R79). -/
theorem CmdWord.ofWire_toWire (w : CmdWord) : CmdWord.ofWire w.toWire = w := by
  apply BitVec.eq_of_getLsbD_eq
  intro i hi
  rw [CmdWord.ofWire_getLsbD _ _ hi, CmdWord.toWire, List.getD_eq_getElem _ _ (by simp; omega), List.getElem_map,
    List.getElem_range, BitVec.getLsbD_extractLsb', show 8 * (i / 8) + i % 8 = i by omega]
  simp [show i % 8 < 8 by omega]

theorem decodeBytes_toWire (w : CmdWord) : decodeBytes w.toWire = decode w := by
  rw [decodeBytes, if_pos w.toWire_length, CmdWord.ofWire_toWire]

/-- `decode` reads the fields an encoder wrote (R74). -/
theorem decode_ofFields (b a : Word) (op : Byte) :
    decode (CmdWord.ofFields b a op) =
      if op = 0x01 then (if b = 0 then .ok (.reset a) else .error .resetOperandB)
      else if op = 0x02 then .ok (.update (sint32 a) (sint32 b))
      else if op = 0x03 then (if a = 0 ∧ b = 0 then .ok .finish else .error .finishOperand)
      else .error (.reservedOpcode op) := by
  rw [decode, CmdWord.ofFields_rsv, CmdWord.ofFields_op, CmdWord.ofFields_a, CmdWord.ofFields_b, if_neg (by simp)]

/-- What a decoded word says of its fields: the three match and mask pairs of R74. -/
theorem decode_ok {w : CmdWord} {i : Instr} (h : decode w = .ok i) :
    w.rsv = 0 ∧ ((w.op = 0x01 ∧ w.b = 0 ∧ i = .reset w.a) ∨
      (w.op = 0x02 ∧ i = .update (sint32 w.a) (sint32 w.b)) ∨ (w.op = 0x03 ∧ w.a = 0 ∧ w.b = 0 ∧ i = .finish)) := by
  unfold decode at h
  split_ifs at h with h0 h1 h2 h3 h4 h5 <;> simp_all

end Sys2Proof
end

