-- ==== Sys2Proof/Laws/State.lean ====
section
/-! SUPPORT. One lemma per field and update, true by unfolding, so that no later proof unfolds a record update. -/

namespace Sys2Proof.Machine

/-! ### The setters -/

@[simp] theorem State.setHasher_hasher (s : State) (x : HasherState) : (s.setHasher x).hasher = x := rfl
@[simp] theorem State.setHasher_refused (s : State) (x : HasherState) : (s.setHasher x).refused = s.refused := rfl
@[simp] theorem State.setHasher_dbuf (s : State) (x : HasherState) : (s.setHasher x).dbuf = s.dbuf := rfl
@[simp] theorem State.setHasher_responses (s : State) (x : HasherState) :
    (s.setHasher x).responses = s.responses := rfl
@[simp] theorem State.setHasher_host (s : State) (x : HasherState) : (s.setHasher x).host = s.host := rfl
@[simp] theorem State.setHasher_params (s : State) (x : HasherState) : (s.setHasher x).params = s.params := rfl
@[simp] theorem State.setHasher_freeCount (s : State) (x : HasherState) :
    (s.setHasher x).freeCount = s.freeCount := rfl

@[simp] theorem State.setDbuf_hasher (s : State) (d : Dbuf) : (s.setDbuf d).hasher = s.hasher := rfl
@[simp] theorem State.setDbuf_refused (s : State) (d : Dbuf) : (s.setDbuf d).refused = s.refused := rfl
@[simp] theorem State.setDbuf_dbuf (s : State) (d : Dbuf) : (s.setDbuf d).dbuf = d := rfl
@[simp] theorem State.setDbuf_responses (s : State) (d : Dbuf) : (s.setDbuf d).responses = s.responses := rfl
@[simp] theorem State.setDbuf_host (s : State) (d : Dbuf) : (s.setDbuf d).host = s.host := rfl
@[simp] theorem State.setDbuf_params (s : State) (d : Dbuf) : (s.setDbuf d).params = s.params := rfl
@[simp] theorem State.setDbuf_freeCount (s : State) (d : Dbuf) : (s.setDbuf d).freeCount = s.freeCount := rfl

@[simp] theorem State.setHost_hasher (s : State) (es : List HostEvent) : (s.setHost es).hasher = s.hasher := rfl
@[simp] theorem State.setHost_refused (s : State) (es : List HostEvent) : (s.setHost es).refused = s.refused := rfl
@[simp] theorem State.setHost_dbuf (s : State) (es : List HostEvent) : (s.setHost es).dbuf = s.dbuf := rfl
@[simp] theorem State.setHost_responses (s : State) (es : List HostEvent) :
    (s.setHost es).responses = s.responses := rfl
@[simp] theorem State.setHost_host (s : State) (es : List HostEvent) : (s.setHost es).host = es := rfl
@[simp] theorem State.setHost_params (s : State) (es : List HostEvent) : (s.setHost es).params = s.params := rfl
@[simp] theorem State.setHost_freeCount (s : State) (es : List HostEvent) :
    (s.setHost es).freeCount = s.freeCount := rfl

@[simp] theorem HasherState.setLanes_seed (h : HasherState) (l : Lanes) : (h.setLanes l).seed = h.seed := rfl
@[simp] theorem HasherState.setLanes_lanes (h : HasherState) (l : Lanes) : (h.setLanes l).lanes = l := rfl
@[simp] theorem HasherState.setLanes_totalLen (h : HasherState) (l : Lanes) :
    (h.setLanes l).totalLen = h.totalLen := rfl
@[simp] theorem HasherState.setLanes_pend (h : HasherState) (l : Lanes) : (h.setLanes l).pend = h.pend := rfl
@[simp] theorem HasherState.setLanes_pendingLen (h : HasherState) (l : Lanes) :
    (h.setLanes l).pendingLen = h.pendingLen := rfl
@[simp] theorem HasherState.setLanes_fin (h : HasherState) (l : Lanes) : (h.setLanes l).fin = h.fin := rfl

@[simp] theorem HasherState.setTotalLen_seed (h : HasherState) (n : Len) : (h.setTotalLen n).seed = h.seed := rfl
@[simp] theorem HasherState.setTotalLen_lanes (h : HasherState) (n : Len) : (h.setTotalLen n).lanes = h.lanes := rfl
@[simp] theorem HasherState.setTotalLen_totalLen (h : HasherState) (n : Len) : (h.setTotalLen n).totalLen = n := rfl
@[simp] theorem HasherState.setTotalLen_pend (h : HasherState) (n : Len) : (h.setTotalLen n).pend = h.pend := rfl
@[simp] theorem HasherState.setTotalLen_pendingLen (h : HasherState) (n : Len) :
    (h.setTotalLen n).pendingLen = h.pendingLen := rfl
@[simp] theorem HasherState.setTotalLen_fin (h : HasherState) (n : Len) : (h.setTotalLen n).fin = h.fin := rfl

@[simp] theorem HasherState.setPend_seed (h : HasherState) (p : Pend) (n : Fin 16) :
    (h.setPend p n).seed = h.seed := rfl
@[simp] theorem HasherState.setPend_lanes (h : HasherState) (p : Pend) (n : Fin 16) :
    (h.setPend p n).lanes = h.lanes := rfl
@[simp] theorem HasherState.setPend_totalLen (h : HasherState) (p : Pend) (n : Fin 16) :
    (h.setPend p n).totalLen = h.totalLen := rfl
@[simp] theorem HasherState.setPend_pend (h : HasherState) (p : Pend) (n : Fin 16) : (h.setPend p n).pend = p := rfl
@[simp] theorem HasherState.setPend_pendingLen (h : HasherState) (p : Pend) (n : Fin 16) :
    (h.setPend p n).pendingLen = n := rfl
@[simp] theorem HasherState.setPend_fin (h : HasherState) (p : Pend) (n : Fin 16) : (h.setPend p n).fin = h.fin := rfl

/-! ### Responses -/

@[simp] theorem State.respond_hasher (s : State) (r : Response) : (s.respond r).hasher = s.hasher := rfl
@[simp] theorem State.respond_refused (s : State) (r : Response) : (s.respond r).refused = s.refused := rfl
@[simp] theorem State.respond_dbuf (s : State) (r : Response) : (s.respond r).dbuf = s.dbuf := rfl
@[simp] theorem State.respond_responses (s : State) (r : Response) :
    (s.respond r).responses = s.responses ++ [r] := rfl
@[simp] theorem State.respond_host (s : State) (r : Response) : (s.respond r).host = s.host := rfl
@[simp] theorem State.respond_params (s : State) (r : Response) : (s.respond r).params = s.params := rfl
@[simp] theorem State.respond_freeCount (s : State) (r : Response) : (s.respond r).freeCount = s.freeCount := rfl

@[simp] theorem State.respondStatus_hasher (s : State) (b : Byte) : (s.respondStatus b).hasher = s.hasher := rfl
@[simp] theorem State.respondStatus_refused (s : State) (b : Byte) : (s.respondStatus b).refused = s.refused := rfl
@[simp] theorem State.respondStatus_dbuf (s : State) (b : Byte) : (s.respondStatus b).dbuf = s.dbuf := rfl
@[simp] theorem State.respondStatus_responses (s : State) (b : Byte) :
    (s.respondStatus b).responses = s.responses ++ [{ status := b, digest := freeDigest s.freeCount }] := rfl
@[simp] theorem State.respondStatus_host (s : State) (b : Byte) : (s.respondStatus b).host = s.host := rfl
@[simp] theorem State.respondStatus_params (s : State) (b : Byte) : (s.respondStatus b).params = s.params := rfl
@[simp] theorem State.respondStatus_freeCount (s : State) (b : Byte) :
    (s.respondStatus b).freeCount = s.freeCount + 4 := rfl

@[simp] theorem State.respondDigest_hasher (s : State) (h : Word) : (s.respondDigest h).hasher = s.hasher := rfl
@[simp] theorem State.respondDigest_refused (s : State) (h : Word) : (s.respondDigest h).refused = s.refused := rfl
@[simp] theorem State.respondDigest_dbuf (s : State) (h : Word) : (s.respondDigest h).dbuf = s.dbuf := rfl
@[simp] theorem State.respondDigest_responses (s : State) (h : Word) :
    (s.respondDigest h).responses = s.responses ++ [{ status := statusOk, digest := Digest.ofWord h }] := rfl
@[simp] theorem State.respondDigest_host (s : State) (h : Word) : (s.respondDigest h).host = s.host := rfl
@[simp] theorem State.respondDigest_params (s : State) (h : Word) : (s.respondDigest h).params = s.params := rfl
@[simp] theorem State.respondDigest_freeCount (s : State) (h : Word) :
    (s.respondDigest h).freeCount = s.freeCount := rfl

/-! ### The refused mark -/

@[simp] theorem State.markRefused_hasher (s : State) : s.markRefused.hasher = s.hasher := rfl
@[simp] theorem State.markRefused_refused (s : State) : s.markRefused.refused = true := rfl
@[simp] theorem State.markRefused_dbuf (s : State) : s.markRefused.dbuf = s.dbuf := rfl
@[simp] theorem State.markRefused_responses (s : State) : s.markRefused.responses = s.responses := rfl
@[simp] theorem State.markRefused_host (s : State) : s.markRefused.host = s.host := rfl
@[simp] theorem State.markRefused_params (s : State) : s.markRefused.params = s.params := rfl
@[simp] theorem State.markRefused_freeCount (s : State) : s.markRefused.freeCount = s.freeCount := rfl

/-! ### Power-on and the INIT configuration -/

@[simp] theorem powerOn_hasher (s : State) :
    (powerOn s).hasher = HasherState.init s.params.resetSeed (freePend s.freeCount) := rfl
@[simp] theorem powerOn_refused (s : State) : (powerOn s).refused = false := rfl
@[simp] theorem powerOn_dbuf (s : State) : (powerOn s).dbuf = s.dbuf := rfl
@[simp] theorem powerOn_responses (s : State) : (powerOn s).responses = s.responses := rfl
@[simp] theorem powerOn_host (s : State) : (powerOn s).host = s.host := rfl
@[simp] theorem powerOn_params (s : State) : (powerOn s).params = s.params := rfl
@[simp] theorem powerOn_freeCount (s : State) : (powerOn s).freeCount = s.freeCount + 16 := rfl

@[simp] theorem HasherState.init_seed (x : Word) (p : Pend) : (HasherState.init x p).seed = x := rfl
@[simp] theorem HasherState.init_lanes (x : Word) (p : Pend) : (HasherState.init x p).lanes = initialLanes x := rfl
@[simp] theorem HasherState.init_totalLen (x : Word) (p : Pend) : (HasherState.init x p).totalLen = 0 := rfl
@[simp] theorem HasherState.init_pend (x : Word) (p : Pend) : (HasherState.init x p).pend = p := rfl
@[simp] theorem HasherState.init_pendingLen (x : Word) (p : Pend) : (HasherState.init x p).pendingLen = 0 := rfl
@[simp] theorem HasherState.init_fin (x : Word) (p : Pend) : (HasherState.init x p).fin = false := rfl

/-! ### The parts of FINISH and UPDATE -/

@[simp] theorem HasherState.setFin_seed (h : HasherState) : h.setFin.seed = h.seed := rfl
@[simp] theorem HasherState.setFin_lanes (h : HasherState) : h.setFin.lanes = h.lanes := rfl
@[simp] theorem HasherState.setFin_totalLen (h : HasherState) : h.setFin.totalLen = h.totalLen := rfl
@[simp] theorem HasherState.setFin_pend (h : HasherState) : h.setFin.pend = h.pend := rfl
@[simp] theorem HasherState.setFin_pendingLen (h : HasherState) : h.setFin.pendingLen = h.pendingLen := rfl
@[simp] theorem HasherState.setFin_fin (h : HasherState) : h.setFin.fin = true := rfl

@[simp] theorem HasherState.addLength_seed (h : HasherState) (n : Nat) : (h.addLength n).seed = h.seed := rfl
@[simp] theorem HasherState.addLength_lanes (h : HasherState) (n : Nat) : (h.addLength n).lanes = h.lanes := rfl
@[simp] theorem HasherState.addLength_totalLen (h : HasherState) (n : Nat) :
    (h.addLength n).totalLen = h.totalLen + BitVec.ofNat 64 n := rfl
@[simp] theorem HasherState.addLength_pend (h : HasherState) (n : Nat) : (h.addLength n).pend = h.pend := rfl
@[simp] theorem HasherState.addLength_pendingLen (h : HasherState) (n : Nat) :
    (h.addLength n).pendingLen = h.pendingLen := rfl
@[simp] theorem HasherState.addLength_fin (h : HasherState) (n : Nat) : (h.addLength n).fin = h.fin := rfl

@[simp] theorem HasherState.accumulate_seed (h : HasherState) (d : List Byte) : (h.accumulate d).seed = h.seed := rfl
@[simp] theorem HasherState.accumulate_lanes (h : HasherState) (d : List Byte) :
    (h.accumulate d).lanes = h.lanes := rfl
@[simp] theorem HasherState.accumulate_totalLen (h : HasherState) (d : List Byte) :
    (h.accumulate d).totalLen = h.totalLen := rfl
@[simp] theorem HasherState.accumulate_pend (h : HasherState) (d : List Byte) :
    (h.accumulate d).pend = pendStore h.pend h.pendingLen d := rfl
@[simp] theorem HasherState.accumulate_pendingLen (h : HasherState) (d : List Byte) :
    (h.accumulate d).pendingLen = Fin.ofNat 16 (h.pendingLen + d.length) := rfl
@[simp] theorem HasherState.accumulate_fin (h : HasherState) (d : List Byte) : (h.accumulate d).fin = h.fin := rfl

@[simp] theorem HasherState.stash_seed (h : HasherState) (d : List Byte) : (h.stash d).seed = h.seed := rfl
@[simp] theorem HasherState.stash_lanes (h : HasherState) (d : List Byte) : (h.stash d).lanes = h.lanes := rfl
@[simp] theorem HasherState.stash_totalLen (h : HasherState) (d : List Byte) :
    (h.stash d).totalLen = h.totalLen := rfl
@[simp] theorem HasherState.stash_pend (h : HasherState) (d : List Byte) :
    (h.stash d).pend = pendStore h.pend 0 d := rfl
@[simp] theorem HasherState.stash_pendingLen (h : HasherState) (d : List Byte) :
    (h.stash d).pendingLen = Fin.ofNat 16 d.length := rfl
@[simp] theorem HasherState.stash_fin (h : HasherState) (d : List Byte) : (h.stash d).fin = h.fin := rfl

@[simp] theorem State.pushHost_host (s : State) (e : HostEvent) : (s.pushHost e).host = e :: s.host := rfl
@[simp] theorem Dbuf.ofBytes_len (bs : List Byte) : (Dbuf.ofBytes bs).len = bs.length := rfl
@[simp] theorem Dbuf.ofBytes_mem (bs : List Byte) : (Dbuf.ofBytes bs).mem = Memory.ofBytes 0 bs := rfl

end Sys2Proof.Machine
end

