-- ==== Sys2Proof/Laws/Pending.lean ====
section
/-! SUPPORT. The pending FIFO: what a run of stores leaves, byte by byte and as a list. -/

namespace Sys2Proof.Machine

theorem pendByte_eq_getElem (p : Pend) (i : Nat) (hi : i < 16) : pendByte p i = p[i] := by
  simp [pendByte, pendBytes, List.getD_eq_getElem?_getD, hi]

theorem pendByte_set (p : Pend) (a i : Nat) (b : Byte) :
    pendByte (p.setIfInBounds a b) i = if i = a ∧ i < 16 then b else pendByte p i := by
  unfold pendByte pendBytes
  rw [Vector.toList_setIfInBounds, List.getD_eq_getElem?_getD, List.getD_eq_getElem?_getD, List.getElem?_set]
  by_cases h : a = i
  · subst h
    by_cases h' : a < 16 <;> simp [h']
  · simp [h, Ne.symm h]

/-- A store of `d` at `a` changes the bytes a .. a + |d| − 1 inside the FIFO, and no others. -/
theorem pendByte_pendStore (p : Pend) (a : Nat) (d : List Byte) (i : Nat) :
    pendByte (pendStore p a d) i = if a ≤ i ∧ i < a + d.length ∧ i < 16 then d.getD (i - a) 0 else pendByte p i := by
  induction d generalizing p a with
  | nil => simp only [pendStore, List.length_nil]; rw [if_neg (by omega)]
  | cons b d ih =>
    rw [pendStore, ih, pendByte_set, List.length_cons]
    by_cases h : i = a
    · subst h
      rw [if_neg (by omega)]
      by_cases h' : i < 16 <;> simp [h']
    · by_cases h' : a ≤ i ∧ i < a + (d.length + 1) ∧ i < 16
      · rw [if_pos (by omega), if_pos h', show i - a = (i - (a + 1)) + 1 by omega, List.getD_cons_succ]
      · rw [if_neg (by omega), if_neg h', if_neg (by omega)]

@[simp] theorem pendBytes_length (p : Pend) : (pendBytes p).length = 16 := by simp [pendBytes]

/-- Two FIFOs with the same bytes are the same. -/
theorem pend_ext {p q : Pend} (h : ∀ i, i < 16 → pendByte p i = pendByte q i) : p = q := by
  apply Vector.ext
  intro i hi
  rw [← pendByte_eq_getElem p i hi, ← pendByte_eq_getElem q i hi, h i hi]

/-- A store that fits keeps what stands before and after it. -/
theorem pendBytes_pendStore (p : Pend) (a : Nat) (d : List Byte) (h : a + d.length ≤ 16) :
    pendBytes (pendStore p a d) = (pendBytes p).take a ++ d ++ (pendBytes p).drop (a + d.length) := by
  simp only [pendBytes]
  apply List.ext_getElem
  · simp; omega
  · intro i h1 h2
    have hi : i < 16 := by simpa using h1
    have := pendByte_pendStore p a d i
    rw [pendByte_eq_getElem _ _ hi] at this
    rw [Vector.getElem_toList, this]
    split_ifs with hc
    · rw [List.getElem_append_left (by simp; omega), List.getElem_append_right (by simp; omega)]
      rw [List.getD_eq_getElem _ _ (by omega)]
      congr 1
      simp
      omega
    · rw [pendByte_eq_getElem _ _ hi]
      by_cases hlt : i < a
      · rw [List.getElem_append_left (by simp; omega), List.getElem_append_left (by simp; omega)]
        simp
      · rw [List.getElem_append_right (by simp; omega)]
        simp only [List.getElem_drop, Vector.getElem_toList]
        congr 1
        simp
        omega

theorem pendStore_nil (p : Pend) (a : Nat) : pendStore p a [] = p := rfl

end Sys2Proof.Machine
end

