-- ==== Sys2Proof/Laws/Finish.lean ====
section
/-! SUPPORT. The finalization unit: the two walks of the tail as one fold over the valid bytes (42_finish.md R145, R146),
and what FINISH answers (R141). -/

namespace Sys2Proof.Machine

theorem pendBytes_drop_take (p : Pend) (n i : Nat) (hi : i < n) (hn : n ≤ 16) :
    ((pendBytes p).take n).drop i = pendByte p i :: ((pendBytes p).take n).drop (i + 1) := by
  have hlen : i < ((pendBytes p).take n).length := by rw [List.length_take, pendBytes_length]; omega
  rw [List.drop_eq_getElem_cons hlen, List.getElem_take, pendByte,
    List.getD_eq_getElem _ _ (by rw [pendBytes_length]; omega)]

/-- The byte walk folds the bytes that remain (R146). -/
theorem byteTail_eq (k : Nat) (pend : Pend) (n p : Nat) (h : Word) (hn : n ≤ 16) (hk : n ≤ p + k) :
    byteTail k pend n p h = (((pendBytes pend).take n).drop p).foldl foldByte h := by
  induction k generalizing p h with
  | zero => rw [List.drop_of_length_le (by rw [List.length_take]; omega)]; rfl
  | succ k ih =>
    rw [byteTail]
    split_ifs with hp
    · rw [ih _ _ (by omega), pendBytes_drop_take pend n p hp hn, List.foldl_cons]
    · rw [List.drop_of_length_le (by rw [List.length_take]; omega)]; rfl

/-- Fewer than four bytes are folded one at a time. -/
theorem foldRest_short (h : Word) (bs : List Byte) (hl : bs.length < 4) : foldRest h bs = bs.foldl foldByte h := by
  match bs, hl with
  | [], _ => rfl
  | [_], _ => rfl
  | [_, _], _ => rfl
  | [_, _, _], _ => rfl

theorem foldRest_word (h : Word) (b0 b1 b2 b3 : Byte) (bs : List Byte) :
    foldRest h (b0 :: b1 :: b2 :: b3 :: bs) = foldRest (foldWord h (le32 b0 b1 b2 b3)) bs := by
  rw [foldRest]

/-- The word walk and then the byte walk fold the bytes that remain (R145, R146). -/
theorem walks_eq (k : Nat) (pend : Pend) (n p : Nat) (h : Word) (hn : n ≤ 16) (hk : n < p + 4 * (k + 1)) :
    byteTail 3 pend n (wordTail k pend n p h).1 (wordTail k pend n p h).2 =
      foldRest h (((pendBytes pend).take n).drop p) := by
  induction k generalizing p h with
  | zero =>
    rw [wordTail, byteTail_eq _ _ _ _ _ hn (by dsimp only; omega), foldRest_short]
    rw [List.length_drop, List.length_take]; omega
  | succ k ih =>
    rw [wordTail]
    split_ifs with hp
    · rw [ih _ _ (by omega), pendBytes_drop_take pend n p (by omega) hn,
        pendBytes_drop_take pend n (p + 1) (by omega) hn, pendBytes_drop_take pend n (p + 2) (by omega) hn,
        pendBytes_drop_take pend n (p + 3) (by omega) hn, foldRest_word, pendWord]
    · rw [byteTail_eq _ _ _ _ _ hn (by dsimp only; omega), foldRest_short]
      rw [List.length_drop, List.length_take]; omega

/-- Steps 3 and 4 of FINISH fold the valid bytes (R145, R146). -/
theorem tailFold_eq (h : HasherState) (x : Word) : tailFold h.pend h.pendingLen x = foldRest x h.validBytes := by
  have := h.pendingLen.isLt
  rw [tailFold, walks_eq 3 _ _ _ _ (by omega) (by omega), List.drop_zero, HasherState.validBytes]

theorem finalHash_eq (h : HasherState) :
    h.finalHash = avalanche (foldRest (h.startHash + h.lengthTerm) h.validBytes) := by
  rw [HasherState.finalHash, tailFold_eq]

/-- The digest does not see the stale bytes or fin (R35, R151). -/
theorem finalHash_congr {h k : HasherState} (hs : h.seed = k.seed) (hl : h.lanes = k.lanes)
    (ht : h.totalLen = k.totalLen) (hv : h.validBytes = k.validBytes) : h.finalHash = k.finalHash := by
  rw [finalHash_eq, finalHash_eq, HasherState.startHash, HasherState.startHash, HasherState.lengthTerm,
    HasherState.lengthTerm, hs, hl, ht, hv]

@[simp] theorem HasherState.setFin_validBytes (h : HasherState) : h.setFin.validBytes = h.validBytes := rfl

theorem exec_finish (s : State) :
    exec .finish s = .next ((s.setHasher s.hasher.setFin).respondDigest s.hasher.finalHash) := rfl

theorem exec_reset (x : Word) (s : State) :
    exec (.reset x) s = .next ((s.setHasher (HasherState.init x s.hasher.pend)).respondStatus statusOk) := rfl

end Sys2Proof.Machine
end

