-- ==== Sys2Proof/Laws/Lanes.lean ====
section
/-! SUPPORT. The bulk loop of UPDATE step 4 and the groups of a stream (20_memory.md R55, 41_update.md R115, R121). -/

namespace Sys2Proof.Machine

theorem streamGroup_length (S : List Byte) (j : Nat) (h : j < S.length / 16) : (streamGroup S j).length = 16 := by
  simp [streamGroup]; omega

theorem streamGroup_zero (S : List Byte) : streamGroup S 0 = S.take 16 := by simp [streamGroup]

theorem streamGroup_succ (S : List Byte) (j : Nat) : streamGroup S (j + 1) = streamGroup (S.drop 16) j := by
  simp [streamGroup, List.drop_drop]; congr 2; omega

/-- A stream of fewer than 16 bytes has no complete group. -/
theorem mixStream_short (l : Lanes) (S : List Byte) (h : S.length < 16) : mixStream l S = l := by
  simp [mixStream, Nat.div_eq_of_lt h]

theorem streamRest_short (S : List Byte) (h : S.length < 16) : streamRest S = S := by
  simp [streamRest, Nat.div_eq_of_lt h]

/-- The first group is mixed first. -/
theorem mixStream_step (l : Lanes) (S : List Byte) (h : 16 ≤ S.length) :
    mixStream l S = mixStream (blockMix l (S.take 16)) (S.drop 16) := by
  have hd : S.length / 16 = (S.drop 16).length / 16 + 1 := by rw [List.length_drop]; omega
  unfold mixStream
  rw [hd, List.range_succ_eq_map, List.foldl_cons, List.foldl_map, streamGroup_zero]
  simp only [Nat.succ_eq_add_one, streamGroup_succ]

theorem streamRest_step (S : List Byte) (h : 16 ≤ S.length) : streamRest S = streamRest (S.drop 16) := by
  unfold streamRest
  rw [List.drop_drop, List.length_drop]
  congr 1
  omega

theorem streamRest_length (S : List Byte) : (streamRest S).length = S.length % 16 := by
  simp [streamRest]; omega

/-- What every run of the bulk loop leaves, when its bound is the number of complete groups. -/
theorem bulkBlocks_eq (l : Lanes) (d : List Byte) :
    bulkBlocks (d.length / 16) l d = (mixStream l d, streamRest d) := by
  generalize hk : d.length / 16 = k
  induction k generalizing l d with
  | zero => rw [bulkBlocks, mixStream_short l d (by omega), streamRest_short d (by omega)]
  | succ k ih =>
    rw [bulkBlocks, if_pos (by omega), ih _ _ (by rw [List.length_drop]; omega),
      ← mixStream_step l d (by omega), ← streamRest_step d (by omega)]

/-- Mixing a stream in two parts: the complete groups of the first part, then the groups of its rest and the second
part. -/
theorem mixStream_append (l : Lanes) (S T : List Byte) :
    mixStream l (S ++ T) = mixStream (mixStream l S) (streamRest S ++ T) := by
  generalize hk : S.length / 16 = k
  induction k generalizing l S with
  | zero => rw [mixStream_short l S (by omega), streamRest_short S (by omega)]
  | succ k ih =>
    rw [mixStream_step l S (by omega), streamRest_step S (by omega), ← ih _ _ (by rw [List.length_drop]; omega),
      mixStream_step l (S ++ T) (by rw [List.length_append]; omega),
      List.take_append_of_le_length (by omega), List.drop_append_of_le_length (by omega)]

theorem streamRest_append (S T : List Byte) : streamRest (S ++ T) = streamRest (streamRest S ++ T) := by
  generalize hk : S.length / 16 = k
  induction k generalizing S with
  | zero => rw [streamRest_short S (by omega)]
  | succ k ih =>
    rw [streamRest_step S (by omega), ← ih _ (by rw [List.length_drop]; omega),
      streamRest_step (S ++ T) (by rw [List.length_append]; omega), List.drop_append_of_le_length (by omega)]

end Sys2Proof.Machine
end

