-- ==== Sys2Proof/Laws/Memory.lean ====
section
/-! SUPPORT. The byte store: a read after a write, and that every operation keeps the canonical form. -/

namespace Sys2Proof.Machine

theorem Memory.wfFrom_cons {lo a : Nat} {b : Byte} {m : Memory} :
    Memory.wfFrom lo ((a, b) :: m) = true ↔ lo ≤ a ∧ b ≠ Memory.unlisted ∧ Memory.wfFrom (a + 1) m = true := by
  simp [Memory.wfFrom, and_assoc]

/-- A store in canonical form stays so when its lower bound is lowered. -/
theorem Memory.wfFrom_mono {lo lo' : Nat} {m : Memory} (h : Memory.wfFrom lo m = true) (hle : lo' ≤ lo) :
    Memory.wfFrom lo' m = true := by
  cases m with
  | nil => rfl
  | cons c m =>
    obtain ⟨a, b⟩ := c
    rw [Memory.wfFrom_cons] at h ⊢
    exact ⟨by omega, h.2⟩

/-- Below a store's lower bound every address is unlisted. -/
theorem Memory.read_of_wfFrom {lo a : Nat} {m : Memory} (h : Memory.wfFrom lo m = true) (hlt : a < lo) :
    Memory.read m a = Memory.unlisted := by
  induction m generalizing lo with
  | nil => rfl
  | cons c m ih =>
    obtain ⟨a', b'⟩ := c
    rw [Memory.wfFrom_cons] at h
    rw [Memory.read, if_neg (by omega)]
    exact ih h.2.2 (by omega)

/-- A write keeps the canonical form. -/
theorem Memory.write_wfFrom {lo a : Nat} {b : Byte} {m : Memory} (h : Memory.wfFrom lo m = true) (hlo : lo ≤ a) :
    Memory.wfFrom lo (Memory.write m a b) = true := by
  induction m generalizing lo with
  | nil => unfold Memory.write; split <;> simp_all [Memory.wfFrom]
  | cons c m ih =>
    obtain ⟨a', b'⟩ := c
    rw [Memory.wfFrom_cons] at h
    obtain ⟨h1, h2, h3⟩ := h
    unfold Memory.write
    split_ifs with hlt hb heq hb
    · exact Memory.wfFrom_cons.2 ⟨h1, h2, h3⟩
    · exact Memory.wfFrom_cons.2 ⟨hlo, hb, Memory.wfFrom_cons.2 ⟨by omega, h2, h3⟩⟩
    · exact Memory.wfFrom_mono h3 (by omega)
    · exact Memory.wfFrom_cons.2 ⟨hlo, hb, heq ▸ h3⟩
    · exact Memory.wfFrom_cons.2 ⟨h1, h2, ih h3 (by omega)⟩

theorem Memory.write_wf {a : Nat} {b : Byte} {m : Memory} (h : m.wf = true) : (Memory.write m a b).wf = true :=
  Memory.write_wfFrom h (Nat.zero_le a)

/-- A read after a write: the byte written at its address, and as before elsewhere. -/
theorem Memory.read_write {lo a : Nat} {b : Byte} {m : Memory} (h : Memory.wfFrom lo m = true) (x : Nat) :
    Memory.read (Memory.write m a b) x = if x = a then b else Memory.read m x := by
  induction m generalizing lo with
  | nil =>
    unfold Memory.write
    by_cases hx : x = a
    · rw [if_pos hx]; split_ifs with hb <;> simp [Memory.read, hx, hb]
    · rw [if_neg hx]; split_ifs <;> simp [Memory.read, Ne.symm hx]
  | cons c m ih =>
    obtain ⟨a', b'⟩ := c
    rw [Memory.wfFrom_cons] at h
    obtain ⟨_, _, h3⟩ := h
    unfold Memory.write
    by_cases hx : x = a
    · subst hx
      rw [if_pos rfl]
      split_ifs with hlt hb heq hb
      · rw [hb]; exact Memory.read_of_wfFrom (lo := x + 1)
          (Memory.wfFrom_cons.2 ⟨by omega, by assumption, h3⟩) (by omega)
      · simp [Memory.read]
      · rw [hb]; exact Memory.read_of_wfFrom h3 (by omega)
      · simp [Memory.read]
      · rw [Memory.read, if_neg (by omega), ih h3, if_pos rfl]
    · rw [if_neg hx]
      split_ifs with hlt hb heq hb
      · rfl
      · rw [Memory.read, if_neg (by omega)]
      · rw [Memory.read, if_neg (by omega)]
      · rw [Memory.read, if_neg (by omega), Memory.read, if_neg (by omega)]
      · simp only [Memory.read, ih h3, if_neg hx]

theorem Memory.ofBytes_wfFrom (a : Nat) (bs : List Byte) : Memory.wfFrom a (Memory.ofBytes a bs) = true := by
  induction bs generalizing a with
  | nil => rfl
  | cons b bs ih => exact Memory.write_wfFrom (Memory.wfFrom_mono (ih (a + 1)) (by omega)) (Nat.le_refl a)

theorem Memory.ofBytes_wf (bs : List Byte) : (Memory.ofBytes 0 bs).wf = true := Memory.ofBytes_wfFrom 0 bs

/-- The byte array a store was made of is what it reads as. -/
theorem Memory.read_ofBytes (a : Nat) (bs : List Byte) (i : Nat) (hi : i < bs.length) :
    Memory.read (Memory.ofBytes a bs) (a + i) = bs[i] := by
  induction bs generalizing a i with
  | nil => simp at hi
  | cons b bs ih =>
    rw [Memory.ofBytes, Memory.read_write (Memory.ofBytes_wfFrom (a + 1) bs)]
    cases i with
    | zero => simp
    | succ i =>
      rw [if_neg (by omega), show a + (i + 1) = (a + 1) + i by omega]
      simpa using ih (a + 1) i (by simpa using hi)

theorem Memory.mem_write {a : Nat} {b : Byte} {m : Memory} {c : Host.Cell} (h : c ∈ Memory.write m a b) :
    c = (a, b) ∨ c ∈ m := by
  induction m with
  | nil => unfold Memory.write at h; split_ifs at h <;> simp_all
  | cons c' m ih =>
    obtain ⟨a', b'⟩ := c'
    unfold Memory.write at h
    split_ifs at h <;> simp_all <;> tauto

theorem Memory.mem_ofBytes {a : Nat} {bs : List Byte} {c : Host.Cell} (h : c ∈ Memory.ofBytes a bs) :
    c.1 < a + bs.length := by
  induction bs generalizing a with
  | nil => simp [Memory.ofBytes] at h
  | cons b bs ih =>
    rcases Memory.mem_write h with rfl | h
    · simp
    · have := ih h; simp only [List.length_cons]; omega

/-- A presented buffer lists no byte outside itself. -/
theorem Dbuf.ofBytes_inside (bs : List Byte) : (Dbuf.ofBytes bs).inside = true := by
  simp only [Dbuf.inside, Dbuf.ofBytes_mem, Dbuf.ofBytes_len, List.all_eq_true]
  intro c hc
  have := Memory.mem_ofBytes hc
  exact decide_eq_true (by simpa using this)

@[simp] theorem Memory.readBytes_length (m : Memory) (a n : Nat) : (Memory.readBytes m a n).length = n := by
  simp [Memory.readBytes]

@[simp] theorem Dbuf.slice_length (d : Dbuf) (a n : Nat) : (d.slice a n).length = n := by simp [Dbuf.slice]

@[simp] theorem Dbuf.slice_getElem (d : Dbuf) (a n i : Nat) (hi : i < (d.slice a n).length) :
    (d.slice a n)[i] = Memory.read d.mem (a + i) := by
  simp [Dbuf.slice, Memory.readBytes]

/-- Two stores that agree on the range give the same bytes. -/
theorem Memory.readBytes_congr {m m' : Memory} {a n : Nat}
    (h : ∀ i, i < n → Memory.read m (a + i) = Memory.read m' (a + i)) :
    Memory.readBytes m a n = Memory.readBytes m' a n := by
  refine List.map_congr_left fun i hi => h i ?_
  simpa using hi

/-- Consecutive ranges of a buffer. -/
theorem Dbuf.slice_append (d : Dbuf) (a m n : Nat) : d.slice a m ++ d.slice (a + m) n = d.slice a (m + n) := by
  apply List.ext_getElem
  · simp
  · intro i h1 h2
    rw [List.getElem_append]
    split
    · simp
    · rename_i hge
      rw [slice_length] at hge
      simp only [slice_getElem, slice_length]
      congr 1
      omega

end Sys2Proof.Machine
end

