-- ==== Sys2Proof/Laws/PerInstr.lean ====
section
/-! SUPPORT. Statements made per command: the fixed fields of its encoded word (30_encoding.md R71, R73, R76). -/

namespace Sys2Proof.Laws.EncodedFields

/-- RSV of the encoded word is zero and OP is the command's opcode of R73. -/
def Statement (i : Instr) : Prop :=
  (encode i).rsv = 0 ∧
    (encode i).op = match i with
      | .reset _ => 0x01#8
      | .update _ _ => 0x02#8
      | .finish => 0x03#8

theorem reset (seed : Word) : Statement (.reset seed) :=
  ⟨CmdWord.ofFields_rsv _ _ _, CmdWord.ofFields_op _ _ _⟩

theorem update (offset count : Int) : Statement (.update offset count) :=
  ⟨CmdWord.ofFields_rsv _ _ _, CmdWord.ofFields_op _ _ _⟩

theorem finish : Statement .finish :=
  ⟨CmdWord.ofFields_rsv _ _ _, CmdWord.ofFields_op _ _ _⟩

end Sys2Proof.Laws.EncodedFields
end

