-- ==== Sys2Proof/Laws/Update.lean ====
section
/-! SUPPORT. What an accepted UPDATE does to the hasher, said once: its lanes, its counts, its valid bytes, and every byte
of Pend (41_update.md R112 to R117); and the three ways UPDATE can end (R111). -/

namespace Sys2Proof.Machine

theorem HasherState.validBytes_length (h : HasherState) : h.validBytes.length = h.pendingLen.val := by
  simp [HasherState.validBytes]

theorem HasherState.validBytes_append_length (h : HasherState) (d : List Byte) :
    (h.validBytes ++ d).length = h.pendingLen.val + d.length := by
  rw [List.length_append, h.validBytes_length]

@[simp] theorem HasherState.addLength_validBytes (h : HasherState) (n : Nat) :
    (h.addLength n).validBytes = h.validBytes := rfl

/-! ### The parts of steps 3 to 5 -/

theorem topUp_of_pending {h : HasherState} (hp : 0 < h.pendingLen.val) (d : List Byte) :
    h.topUp d =
      ((h.setPend (pendStore h.pend h.pendingLen (d.take (16 - h.pendingLen))) 0).setLanes
          (blockMix h.lanes (pendBytes (pendStore h.pend h.pendingLen (d.take (16 - h.pendingLen))))),
        d.drop (16 - h.pendingLen)) := by
  rw [HasherState.topUp, if_pos hp]

theorem topUp_of_empty {h : HasherState} (hp : ¬0 < h.pendingLen.val) (d : List Byte) : h.topUp d = (h, d) := by
  rw [HasherState.topUp, if_neg hp]

@[simp] theorem topUp_seed (h : HasherState) (d : List Byte) : (h.topUp d).1.seed = h.seed := by
  by_cases hp : 0 < h.pendingLen.val
  · rw [topUp_of_pending hp, HasherState.setLanes_seed, HasherState.setPend_seed]
  · rw [topUp_of_empty hp]
@[simp] theorem topUp_totalLen (h : HasherState) (d : List Byte) : (h.topUp d).1.totalLen = h.totalLen := by
  by_cases hp : 0 < h.pendingLen.val
  · rw [topUp_of_pending hp, HasherState.setLanes_totalLen, HasherState.setPend_totalLen]
  · rw [topUp_of_empty hp]
@[simp] theorem topUp_fin (h : HasherState) (d : List Byte) : (h.topUp d).1.fin = h.fin := by
  by_cases hp : 0 < h.pendingLen.val
  · rw [topUp_of_pending hp, HasherState.setLanes_fin, HasherState.setPend_fin]
  · rw [topUp_of_empty hp]

@[simp] theorem bulk_seed (h : HasherState) (d : List Byte) : (h.bulk d).1.seed = h.seed := rfl
@[simp] theorem bulk_lanes (h : HasherState) (d : List Byte) : (h.bulk d).1.lanes = mixStream h.lanes d := by
  simp only [HasherState.bulk, bulkBlocks_eq, HasherState.setLanes_lanes]
@[simp] theorem bulk_rest (h : HasherState) (d : List Byte) : (h.bulk d).2 = streamRest d := by
  simp only [HasherState.bulk, bulkBlocks_eq]
@[simp] theorem bulk_totalLen (h : HasherState) (d : List Byte) : (h.bulk d).1.totalLen = h.totalLen := rfl
@[simp] theorem bulk_pend (h : HasherState) (d : List Byte) : (h.bulk d).1.pend = h.pend := rfl
@[simp] theorem bulk_pendingLen (h : HasherState) (d : List Byte) : (h.bulk d).1.pendingLen = h.pendingLen := rfl
@[simp] theorem bulk_fin (h : HasherState) (d : List Byte) : (h.bulk d).1.fin = h.fin := rfl

/-- What step 3 leaves when bytes are pending: Pend is the valid bytes and the first bytes of the data (R114). -/
theorem topUp_pendBytes (h : HasherState) (d : List Byte) (hd : 16 ≤ h.pendingLen.val + d.length) :
    pendBytes (pendStore h.pend h.pendingLen (d.take (16 - h.pendingLen.val))) = (h.validBytes ++ d).take 16 := by
  have hp := h.pendingLen.isLt
  have hlen : (d.take (16 - h.pendingLen.val)).length = 16 - h.pendingLen.val := by
    rw [List.length_take]; omega
  rw [pendBytes_pendStore _ _ _ (by rw [hlen]; omega), hlen, List.take_append, h.validBytes_length,
    List.take_of_length_le (l := h.validBytes) (by rw [h.validBytes_length]; omega), HasherState.validBytes,
    List.drop_of_length_le (by simp), List.append_nil]

/-- Steps 3 and 4 together: the lanes have taken every complete group of the pending bytes and the data (R114, R115). -/
theorem topUp_mix (h : HasherState) (d : List Byte) (hd : 16 ≤ h.pendingLen.val + d.length) :
    mixStream (h.topUp d).1.lanes (h.topUp d).2 = mixStream h.lanes (h.validBytes ++ d) ∧
      streamRest (h.topUp d).2 = streamRest (h.validBytes ++ d) := by
  have hlt := h.pendingLen.isLt
  have hl := h.validBytes_append_length d
  by_cases hp : 0 < h.pendingLen.val
  · have hdrop : d.drop (16 - h.pendingLen.val) = (h.validBytes ++ d).drop 16 := by
      rw [List.drop_append, h.validBytes_length,
        List.drop_of_length_le (l := h.validBytes) (by rw [h.validBytes_length]; omega), List.nil_append]
    rw [topUp_of_pending hp]
    dsimp only
    rw [topUp_pendBytes h d hd, hdrop]
    exact ⟨(mixStream_step _ _ (by omega)).symm, (streamRest_step _ (by omega)).symm⟩
  · have hv : h.validBytes = [] := List.eq_nil_of_length_eq_zero (by rw [h.validBytes_length]; omega)
    rw [topUp_of_empty hp, hv, List.nil_append]
    exact ⟨rfl, rfl⟩

theorem drain_eq (h : HasherState) (d : List Byte) :
    h.drain d = ((h.topUp d).1.bulk (h.topUp d).2).1.stash (streamRest (h.topUp d).2) := by
  rw [HasherState.drain, ← bulk_rest]

/-! ### The fields of an accepted UPDATE -/

theorem absorb_of_short {h : HasherState} {d : List Byte} (hc : h.pendingLen.val + d.length < 16) :
    h.absorb d = (h.addLength d.length).accumulate d := by
  rw [HasherState.absorb, if_pos hc]

theorem absorb_of_long {h : HasherState} {d : List Byte} (hc : ¬h.pendingLen.val + d.length < 16) :
    h.absorb d = (h.addLength d.length).drain d := by
  rw [HasherState.absorb, if_neg hc]

theorem absorb_seed (h : HasherState) (d : List Byte) : (h.absorb d).seed = h.seed := by
  by_cases hc : h.pendingLen.val + d.length < 16
  · rw [absorb_of_short hc]; rfl
  · rw [absorb_of_long hc, drain_eq]; simp

theorem absorb_fin (h : HasherState) (d : List Byte) : (h.absorb d).fin = h.fin := by
  by_cases hc : h.pendingLen.val + d.length < 16
  · rw [absorb_of_short hc]; rfl
  · rw [absorb_of_long hc, drain_eq]; simp

theorem absorb_totalLen (h : HasherState) (d : List Byte) :
    (h.absorb d).totalLen = h.totalLen + BitVec.ofNat 64 d.length := by
  by_cases hc : h.pendingLen.val + d.length < 16
  · rw [absorb_of_short hc]; rfl
  · rw [absorb_of_long hc, drain_eq]; simp

/-- Each complete group of the pending bytes and the data is mixed once, in stream order (R121, R124). -/
theorem absorb_lanes (h : HasherState) (d : List Byte) :
    (h.absorb d).lanes = mixStream h.lanes (h.validBytes ++ d) := by
  have hl := h.validBytes_append_length d
  by_cases hc : h.pendingLen.val + d.length < 16
  · rw [absorb_of_short hc, mixStream_short _ _ (by omega)]; rfl
  · rw [absorb_of_long hc, drain_eq, HasherState.stash_lanes, bulk_lanes]
    exact (topUp_mix (h.addLength d.length) d (by simpa using hc)).1

theorem absorb_pendingLen (h : HasherState) (d : List Byte) :
    (h.absorb d).pendingLen.val = (h.pendingLen.val + d.length) % 16 := by
  have hl := h.validBytes_append_length d
  by_cases hc : h.pendingLen.val + d.length < 16
  · rw [absorb_of_short hc, HasherState.accumulate_pendingLen]; rfl
  · rw [absorb_of_long hc, drain_eq, HasherState.stash_pendingLen,
      (topUp_mix (h.addLength d.length) d (by simpa using hc)).2, HasherState.addLength_validBytes,
      streamRest_length, hl]
    exact Nat.mod_mod _ _

/-- The valid bytes of Pend after are the rest of the stream that completes no group (R121). -/
theorem absorb_validBytes (h : HasherState) (d : List Byte) :
    (h.absorb d).validBytes = streamRest (h.validBytes ++ d) := by
  have hl := h.validBytes_append_length d
  have hr := streamRest_length (h.validBytes ++ d)
  rw [HasherState.validBytes, absorb_pendingLen]
  by_cases hc : h.pendingLen.val + d.length < 16
  · rw [absorb_of_short hc, streamRest_short _ (by omega), HasherState.accumulate_pend, HasherState.addLength_pend,
      HasherState.addLength_pendingLen, pendBytes_pendStore _ _ _ (by omega), Nat.mod_eq_of_lt hc,
      List.take_append_of_le_length (by simp), List.take_of_length_le (by simp), HasherState.validBytes]
  · rw [absorb_of_long hc, drain_eq, HasherState.stash_pend,
      (topUp_mix (h.addLength d.length) d (by simpa using hc)).2, HasherState.addLength_validBytes,
      pendBytes_pendStore _ _ _ (by omega), List.take_zero, List.nil_append,
      List.take_append_of_le_length (by omega), List.take_of_length_le (by omega)]

/-- Every byte of Pend after an UPDATE that only accumulates (R113). -/
theorem absorb_pendByte_short (h : HasherState) (d : List Byte) (hc : h.pendingLen.val + d.length < 16) (i : Nat) :
    pendByte (h.absorb d).pend i =
      if h.pendingLen.val ≤ i ∧ i < h.pendingLen.val + d.length then d.getD (i - h.pendingLen.val) 0
      else pendByte h.pend i := by
  rw [absorb_of_short hc, HasherState.accumulate_pend, pendByte_pendStore, HasherState.addLength_pendingLen,
    HasherState.addLength_pend]
  split_ifs <;> first | rfl | omega

/-- Every byte of Pend after the top-up (R114). -/
theorem topUp_pendByte (h : HasherState) (d : List Byte) (hd : 16 ≤ h.pendingLen.val + d.length) (i : Nat)
    (hi : i < 16) :
    pendByte (h.topUp d).1.pend i =
      if 0 < h.pendingLen.val ∧ h.pendingLen.val ≤ i then d.getD (i - h.pendingLen.val) 0 else pendByte h.pend i := by
  by_cases hp : 0 < h.pendingLen.val
  · rw [topUp_of_pending hp]
    simp only [HasherState.setLanes_pend, HasherState.setPend_pend]
    rw [pendByte_pendStore, List.length_take]
    by_cases hle : h.pendingLen.val ≤ i
    · rw [if_pos (by omega), if_pos ⟨hp, hle⟩, List.getD_eq_getElem?_getD, List.getD_eq_getElem?_getD,
        List.getElem?_take_of_lt (by omega)]
    · rw [if_neg (by omega), if_neg (by omega)]
  · rw [topUp_of_empty hp, if_neg (by omega)]

/-- Every byte of Pend after an UPDATE that completes a group: the stash, then what the top-up wrote where there was
one, then what stood there (R114, R115, R117). -/
theorem absorb_pendByte_long (h : HasherState) (d : List Byte) (hc : 16 ≤ h.pendingLen.val + d.length) (i : Nat)
    (hi : i < 16) :
    pendByte (h.absorb d).pend i =
      if i < (h.pendingLen.val + d.length) % 16 then
        d.getD (d.length - (h.pendingLen.val + d.length) % 16 + i) 0
      else if 0 < h.pendingLen.val ∧ h.pendingLen.val ≤ i then d.getD (i - h.pendingLen.val) 0
      else pendByte h.pend i := by
  have hlt := h.pendingLen.isLt
  have hl := h.validBytes_append_length d
  have hr := streamRest_length (h.validBytes ++ d)
  rw [absorb_of_long (by omega), drain_eq, HasherState.stash_pend,
    (topUp_mix (h.addLength d.length) d hc).2, HasherState.addLength_validBytes, pendByte_pendStore, hr, hl, bulk_pend]
  by_cases hlt' : i < (h.pendingLen.val + d.length) % 16
  · rw [if_pos (by omega), if_pos hlt', streamRest, hl, Nat.sub_zero, List.drop_append, h.validBytes_length,
      List.drop_of_length_le (l := h.validBytes) (by rw [h.validBytes_length]; omega), List.nil_append,
      List.getD_eq_getElem?_getD, List.getD_eq_getElem?_getD, List.getElem?_drop]
    congr 2
    omega
  · rw [if_neg (by omega), if_neg hlt', topUp_pendByte (h.addLength d.length) d hc i hi,
      HasherState.addLength_pendingLen, HasherState.addLength_pend]

/-- An UPDATE of no bytes changes no element (R120). -/
theorem absorb_nil (h : HasherState) : h.absorb [] = h := by
  have hlt := h.pendingLen.isLt
  rw [absorb_of_short (by simp)]
  have hp : Fin.ofNat 16 h.pendingLen.val = h.pendingLen := Fin.ext (Nat.mod_eq_of_lt hlt)
  cases h
  simp_all [HasherState.accumulate, HasherState.addLength, HasherState.setTotalLen, HasherState.setPend, pendStore_nil]

/-! ### The three ways UPDATE ends -/

/-- `updateForbidden` is check 1 of R111. -/
theorem updateForbidden_iff (s : State) :
    s.updateForbidden = true ↔ s.hasher.fin = true ∧ s.params.postFinishUpdate = .refuse := by
  simp [State.updateForbidden]

/-- `outOfRange` is check 2 of R111. -/
theorem outOfRange_iff (offset count : Int) (n : Nat) :
    outOfRange offset count n = true ↔ offset < 0 ∨ count < 0 ∨ (n : Int) < offset + count := by
  simp [outOfRange, or_assoc]

theorem exec_update_forbidden {s : State} (h : s.updateForbidden = true) (offset count : Int) :
    exec (.update offset count) s = .refused (.updateAfterFinish s.markRefused) := by
  simp only [exec, execUpdate, h, if_true, refuseUpdateAfterFinish]

theorem exec_update_invalid {s : State} (h : s.updateForbidden = false) {offset count : Int}
    (hr : outOfRange offset count s.dbuf.len = true) :
    exec (.update offset count) s = .next (s.respondStatus statusInvalidArgument) := by
  simp [exec, execUpdate, h, hr, raiseInvalidArgument]

theorem exec_update_accepted {s : State} (h : s.updateForbidden = false) {offset count : Int}
    (hr : outOfRange offset count s.dbuf.len = false) :
    exec (.update offset count) s = .next
      ((s.setHasher (s.hasher.absorb (s.dbuf.slice offset.toNat count.toNat))).respondStatus statusOk) := by
  simp [exec, execUpdate, h, hr]

end Sys2Proof.Machine
end

