-- ==== Sys2Proof/Laws/Step.lean ====
section
/-! SUPPORT. What a command, a host action and a step can do, said once: one inversion lemma for each, from which every
invariant follows. -/

namespace Sys2Proof.Machine

/-- A command that answers a next state is one of four things: RESET, an UPDATE out of range, an accepted UPDATE, or
FINISH. -/
theorem exec_next_cases {i : Instr} {s t : State} (h : exec i s = .next t) :
    (∃ x, i = .reset x ∧ t = (s.setHasher (HasherState.init x s.hasher.pend)).respondStatus statusOk) ∨
    (∃ offset count, i = .update offset count ∧ s.updateForbidden = false ∧
      outOfRange offset count s.dbuf.len = true ∧ t = s.respondStatus statusInvalidArgument) ∨
    (∃ offset count, i = .update offset count ∧ s.updateForbidden = false ∧
      outOfRange offset count s.dbuf.len = false ∧
      t = (s.setHasher (s.hasher.absorb (s.dbuf.slice offset.toNat count.toNat))).respondStatus statusOk) ∨
    (i = .finish ∧ t = (s.setHasher s.hasher.setFin).respondDigest s.hasher.finalHash) := by
  cases i with
  | reset x =>
    rw [exec_reset] at h
    exact .inl ⟨x, rfl, (Host.Outcome.next.inj h).symm⟩
  | update offset count =>
    by_cases hf : s.updateForbidden = true
    · rw [exec_update_forbidden hf] at h; cases h
    · rw [Bool.not_eq_true] at hf
      by_cases hr : outOfRange offset count s.dbuf.len = true
      · rw [exec_update_invalid hf hr] at h
        exact .inr (.inl ⟨offset, count, rfl, hf, hr, (Host.Outcome.next.inj h).symm⟩)
      · rw [Bool.not_eq_true] at hr
        rw [exec_update_accepted hf hr] at h
        exact .inr (.inr (.inl ⟨offset, count, rfl, hf, hr, (Host.Outcome.next.inj h).symm⟩))
  | finish =>
    rw [exec_finish] at h
    exact .inr (.inr (.inr ⟨rfl, (Host.Outcome.next.inj h).symm⟩))

/-- The only refusal of a command is UPDATE_AFTER_FINISH (R111, R205). -/
theorem exec_refused_cases {i : Instr} {s : State} {r : Refusal} (h : exec i s = .refused r) :
    (∃ offset count, i = .update offset count) ∧ s.updateForbidden = true ∧ r = .updateAfterFinish s.markRefused := by
  cases i with
  | reset x => rw [exec_reset] at h; cases h
  | update offset count =>
    by_cases hf : s.updateForbidden = true
    · rw [exec_update_forbidden hf] at h
      exact ⟨⟨offset, count, rfl⟩, hf, (Host.Outcome.refused.inj h).symm⟩
    · rw [Bool.not_eq_true] at hf
      by_cases hr : outOfRange offset count s.dbuf.len = true
      · rw [exec_update_invalid hf hr] at h; cases h
      · rw [Bool.not_eq_true] at hr
        rw [exec_update_accepted hf hr] at h; cases h
  | finish => rw [exec_finish] at h; cases h

/-- No command faults (R202). -/
theorem exec_ne_fault (i : Instr) (s : State) (f : Fault) : exec i s ≠ .fault f := by
  intro h
  cases i with
  | reset x => rw [exec_reset] at h; cases h
  | update offset count =>
    by_cases hf : s.updateForbidden = true
    · rw [exec_update_forbidden hf] at h; cases h
    · rw [Bool.not_eq_true] at hf
      by_cases hr : outOfRange offset count s.dbuf.len = true
      · rw [exec_update_invalid hf hr] at h; cases h
      · rw [Bool.not_eq_true] at hr
        rw [exec_update_accepted hf hr] at h; cases h
  | finish => rw [exec_finish] at h; cases h

theorem issue_ok {w : CmdWord} {i : Instr} (h : decode w = .ok i) (s : State) : issue w s = exec i s := by
  rw [issue, h]

theorem issue_reserved {w : CmdWord} {e : DecodeError} (h : decode w = .error e) (s : State) :
    issue w s = .refused (.reservedEncoding s.markRefused) := by
  rw [issue, h]; rfl

theorem presentBuffer_fits {bs : List Byte} {s : State} (h : bs.length ≤ s.params.maxBufLen) :
    presentBuffer bs s = .next (s.setDbuf (Dbuf.ofBytes bs)) := by
  rw [presentBuffer, if_pos h]

theorem presentBuffer_tooLong {bs : List Byte} {s : State} (h : ¬bs.length ≤ s.params.maxBufLen) :
    presentBuffer bs s = .fault .bufferTooLong := by
  rw [presentBuffer, if_neg h]

/-- A host action that answers a next state: a command that did, a buffer that fits the port, or a power-on. -/
theorem hostEvent_next_cases {e : HostEvent} {s t : State} (h : hostEvent e s = .next t) :
    (∃ w i, e = .command w ∧ decode w = .ok i ∧ exec i s = .next t) ∨
    (∃ bs, e = .present bs ∧ bs.length ≤ s.params.maxBufLen ∧ t = s.setDbuf (Dbuf.ofBytes bs)) ∨
    (e = .powerOn ∧ t = powerOn s) := by
  cases e with
  | command w =>
    rw [hostEvent] at h
    cases hd : decode w with
    | ok i => rw [issue_ok hd] at h; exact .inl ⟨w, i, rfl, hd, h⟩
    | error e => rw [issue_reserved hd] at h; cases h
  | present bs =>
    rw [hostEvent] at h
    by_cases hb : bs.length ≤ s.params.maxBufLen
    · rw [presentBuffer_fits hb] at h; exact .inr (.inl ⟨bs, rfl, hb, (Host.Outcome.next.inj h).symm⟩)
    · rw [presentBuffer_tooLong hb] at h; cases h
  | powerOn => rw [hostEvent] at h; exact .inr (.inr ⟨rfl, (Host.Outcome.next.inj h).symm⟩)

/-- A host action that is refused: a reserved word, or UPDATE after FINISH (R205). -/
theorem hostEvent_refused_cases {e : HostEvent} {s : State} {r : Refusal} (h : hostEvent e s = .refused r) :
    (∃ w x, e = .command w ∧ decode w = .error x ∧ r = .reservedEncoding s.markRefused) ∨
    (∃ w offset count, e = .command w ∧ decode w = .ok (.update offset count) ∧ s.updateForbidden = true ∧
      r = .updateAfterFinish s.markRefused) := by
  cases e with
  | command w =>
    rw [hostEvent] at h
    cases hd : decode w with
    | ok i =>
      rw [issue_ok hd] at h
      obtain ⟨⟨o, c, rfl⟩, hf, hr⟩ := exec_refused_cases h
      exact .inr ⟨w, o, c, rfl, hd, hf, hr⟩
    | error e => rw [issue_reserved hd] at h; exact .inl ⟨w, e, rfl, hd, (Host.Outcome.refused.inj h).symm⟩
  | present bs =>
    rw [hostEvent] at h
    by_cases hb : bs.length ≤ s.params.maxBufLen
    · rw [presentBuffer_fits hb] at h; cases h
    · rw [presentBuffer_tooLong hb] at h; cases h
  | powerOn => rw [hostEvent] at h; cases h

/-- A host action that faults is a buffer too long for the port (log entry 7). -/
theorem hostEvent_fault_cases {e : HostEvent} {s : State} {f : Fault} (h : hostEvent e s = .fault f) :
    ∃ bs, e = .present bs ∧ s.params.maxBufLen < bs.length := by
  cases e with
  | command w =>
    rw [hostEvent] at h
    cases hd : decode w with
    | ok i => rw [issue_ok hd] at h; exact absurd h (exec_ne_fault _ _ _)
    | error e => rw [issue_reserved hd] at h; cases h
  | present bs =>
    rw [hostEvent] at h
    by_cases hb : bs.length ≤ s.params.maxBufLen
    · rw [presentBuffer_fits hb] at h; cases h
    · exact ⟨bs, rfl, Nat.lt_of_not_le hb⟩
  | powerOn => rw [hostEvent] at h; cases h

theorem step_event {s : State} {e : HostEvent} {rest : List HostEvent} (h : s.host = e :: rest) :
    step s = hostEvent e (s.setHost rest) := by
  rw [step, h]

/-- A step is idle, or takes the host's first action. -/
theorem step_cases (s : State) :
    (s.host = [] ∧ step s = .next s) ∨
      ∃ e rest, s.host = e :: rest ∧ step s = hostEvent e (s.setHost rest) := by
  cases h : s.host with
  | nil => exact .inl ⟨rfl, by rw [step, h]⟩
  | cons e rest => exact .inr ⟨e, rest, rfl, step_event h⟩

/-- A run of no steps. -/
theorem run_zero (s : State) : Host.Core.run Sys2Proof.core 0 s = .next s := rfl

theorem core_run_next (M : Host.Core) {s t : M.State} (h : M.step s = .next t) (k : Nat) :
    M.run (k + 1) s = M.run k t := by
  rw [Host.Core.run, h]

theorem core_run_fault (M : Host.Core) {s : M.State} {f : M.Fault} (h : M.step s = .fault f) (k : Nat) :
    M.run (k + 1) s = .fault f := by
  rw [Host.Core.run, h]

theorem core_run_refused (M : Host.Core) {s : M.State} {r : M.Refusal} (h : M.step s = .refused r) (k : Nat) :
    M.run (k + 1) s = .refused r := by
  rw [Host.Core.run, h]

/-- A run of k + 1 steps goes on from the next state of its first step. -/
theorem run_succ_of_next {s t : State} (h : step s = .next t) (k : Nat) :
    Host.Core.run Sys2Proof.core (k + 1) s = Host.Core.run Sys2Proof.core k t :=
  core_run_next Sys2Proof.core h k

/-- A run ends at a fault. -/
theorem run_succ_of_fault {s : State} {f : Fault} (h : step s = .fault f) (k : Nat) :
    Host.Core.run Sys2Proof.core (k + 1) s = .fault f :=
  core_run_fault Sys2Proof.core h k

/-- A run ends at a refusal (R243). -/
theorem run_succ_of_refused {s : State} {r : Refusal} (h : step s = .refused r) (k : Nat) :
    Host.Core.run Sys2Proof.core (k + 1) s = .refused r :=
  core_run_refused Sys2Proof.core h k

end Sys2Proof.Machine
end

