-- ==== Sys2Proof/Tests/Slice0.lean ====
section
/-! SUPPORT. The model's own tests: ill-formed terms, words written out from the spec, one-step vectors of
95_test_vectors.md, and a witness for the hypotheses of every statement that has some. -/

namespace Sys2Proof.Machine.Tests

/-! ### Small states -/

/-- The bytes 00..0F (95_test_vectors.md, Notation). -/
def ascending : List Byte := (List.range 16).map (BitVec.ofNat 8)

/-- After `RESET 0` with the buffer 00..0F presented. -/
def base : State := State.reset.setDbuf (Dbuf.ofBytes ascending)

/-- V-U8: 15 bytes 00..0E pending. -/
def fifteen : State :=
  base.setHasher { State.reset.hasher with
    totalLen := 15, pend := pendStore State.reset.hasher.pend 0 (ascending.take 15), pendingLen := 15 }

/-- After FINISH of the empty message, under either value of POST_FINISH_UPDATE. -/
def finished (p : PostFinishUpdate) : State :=
  { base with hasher := State.reset.hasher.setFin, params := { Config.defaults with postFinishUpdate := p } }

/-- The state a result goes on in. -/
def next? (r : Result) : Option State :=
  match r with
  | .next t => some t
  | .fault _ => none
  | .refused _ => none

/-! ### Ill-formed terms are refused (R16, R72) -/

theorem test_wf_refuses_wide_offset : (Instr.update (2 ^ 31) 0).wf = false ∧ ¬(Instr.update (2 ^ 31) 0).WellFormed := by
  decide
theorem test_wf_refuses_low_count :
    (Instr.update 0 (-(2 ^ 31) - 1)).wf = false ∧ ¬(Instr.update 0 (-(2 ^ 31) - 1)).WellFormed := by decide
theorem test_wf_accepts_bounds : (Instr.update (-(2 ^ 31)) (2 ^ 31 - 1)).WellFormed := by decide

/-! ### Words written out from the spec (95_test_vectors.md 2.1; R79) -/

theorem test_decode_reset : decode 0x00000000DEADBEEF00000001#96 = .ok (.reset 0xDEADBEEF#32) := by decide
theorem test_decode_update : decode 0x800000000000000000000002#96 = .ok (.update 0 (-2147483648)) := by decide
theorem test_decode_finish : decode 0x000000000000000000000003#96 = .ok .finish := by decide
theorem test_decode_reset_operand : decode 0x000000010000000000000001#96 = .error .resetOperandB := by decide
theorem test_decode_finish_operand : decode 0x000000000000000100000003#96 = .error .finishOperand := by decide
theorem test_decode_reserved_op : decode 0x0000000000000000000000FF#96 = .error (.reservedOpcode 0xFF#8) := by decide
theorem test_decode_reserved_bits : decode 0x000000000000000080000002#96 = .error .reservedBits := by decide
theorem test_wire_reset :
    decodeBytes [0x01#8, 0, 0, 0, 0x78#8, 0x56#8, 0x34#8, 0x12#8, 0, 0, 0, 0] = .ok (.reset 0x12345678#32) := by decide
theorem test_table_word_update : decodeTableWord 96 0x00000004FFFFFFFF00000002 = some (.update (-1) 4) := by decide

/-! ### One-step vectors -/

/-- V-R5. -/
theorem test_reset_lanes : (next? (exec (.reset 0x12345678#32) fifteen)).map
      (fun t => (t.hasher.lanes, t.hasher.pendingLen)) =
    some (⟨0x36579AA0#32, 0x982020EF#32, 0x12345678#32, 0x73FCDCC7#32⟩, 0) := by decide
/-- V-R4: v4 reaches 0. -/
theorem test_reset_wraps : (next? (exec (.reset 0x9E3779B1#32) base)).map
      (fun t => (t.hasher.lanes.v2, t.hasher.lanes.v4)) =
    some (0x24234428#32, 0#32) := by decide
set_option maxRecDepth 20000 in
/-- V-U10: one bulk block; Pend not written. -/
theorem test_update_bulk_block :
    (next? (exec (.update 0 16) base)).map (fun t => (t.hasher.lanes, pendByte t.hasher.pend 1)) =
    some (⟨0xF817BCCB#32, 0x0222719B#32, 0xD4B0C0A4#32, 0xDEBB7574#32⟩, 0#8) := by decide
/-- V-U9: the sixteenth byte tops up and drains. -/
theorem test_update_drains : (next? (exec (.update 15 1) fifteen)).map (fun t => (t.hasher.lanes, t.hasher.totalLen)) =
    some (⟨0xF817BCCB#32, 0x0222719B#32, 0xD4B0C0A4#32, 0xDEBB7574#32⟩, 16#64) := by decide
/-- V-F1, V-S1: the empty message. -/
theorem test_finish_empty : (next? (exec .finish State.reset)).map (fun t => t.responses) =
    some [⟨0x00#8, ⟨0x05#8, 0x5D#8, 0xCC#8, 0x02#8⟩⟩] := by decide
set_option maxRecDepth 20000 in
/-- V-F11: the longest tail, three words and three bytes. -/
theorem test_finish_longest_tail : (next? (exec .finish fifteen)).map (fun t => t.responses) =
    some [⟨0x00#8, ⟨0xCE#8, 0x1E#8, 0xC0#8, 0x57#8⟩⟩] := by decide
/-- V-B6: a lane reaches 0. -/
theorem test_round_reaches_zero : laneRound 0x85EBCA77#32 0xFFFFFFFF#32 = 0 := by decide
/-- V-F23: bits 63:32 of total_len stay out of the digest. -/
theorem test_finish_low_length :
    ({ State.reset.hasher with totalLen := 0x100000010#64 } : HasherState).finalHash = 0x0A497C7B#32 := by decide

/-! ### The assembler (R80, R84) -/

theorem test_assemble_update : parseLine "UPDATE -1, 4   ; bad".toList = some (.command (.update (-1) 4)) := by decide
theorem test_assemble_seed : parseLine "RESET 0xFFFFFFFF".toList = some (.command (.reset 0xFFFFFFFF#32)) := by decide
theorem test_assemble_text : parseLine ".dbuf \"abc\"".toList = some (.dbuf [0x61#8, 0x62#8, 0x63#8]) := by decide
theorem test_assemble_rejects_wide_seed : parseLine "RESET 4294967296".toList = none := by decide
/-- HASH takes the length of the buffer in force; a buffer of 2^31 bytes has no UPDATE.ALL word (R72, R82). -/
theorem test_assemble_hash : assemble 0 [".dbuf 61 62".toList, "HASH 7".toList] =
    some [.present [0x61#8, 0x62#8], .command 0x000000000000000700000001#96, .command 0x000000020000000000000002#96,
      .command 0x000000000000000000000003#96] := by decide
theorem test_assemble_too_long : assembleLines (2 ^ 31) [.pseudo .updateAll] = none := by decide
/-- Log entry 12: a carriage return is a blank, also right after `.dbuf`. -/
theorem test_assemble_carriage_return : parseLine "FINISH\r".toList = some (.command .finish) ∧
    parseLine ".dbuf\r".toList = some (.dbuf []) ∧ parseLine ".dbuf 61\r".toList = some (.dbuf [0x61#8]) := by decide
/-- Log entry 14: a run that starts marked is not successful, though its power-on clears the mark. -/
theorem test_marked_start_is_no_successful_run :
    ¬SuccessfulRun (base.markRefused.pushHost .powerOn) (powerOn base.markRefused) ∧
      (powerOn base.markRefused).refused = false := ⟨fun h => absurd h.1 (by decide), rfl⟩

/-! ### Witnesses: every hypothesis of a statement can be met -/

theorem witness_RotationIsCircular : 1 ≤ 31 ∧ 31 ≤ 31 ∧ rotl32 0x00000003#32 31 = 0x80000001#32 := by decide
theorem witness_SignedOperandsAreExact : decode 0x00000004FFFFFFFF00000002#96 = .ok (.update (-1) 4) := by decide
theorem witness_AvalancheIsBijective : 1 ≤ 15 ∧ (0x00000000#32 : Word) ≠ 0x00000001#32 := by decide
theorem witness_DecodeOfEncode : (Instr.update (-(2 ^ 31)) (2 ^ 31 - 1)).WellFormed := by decide
theorem witness_EncodeOfDecode : decode 0xFFFFFFFF8000000000000002#96 = .ok (.update (-2147483648) (-1)) := by decide
theorem witness_WireIsTwelveBytesLittleEndian : 11 < 12 ∧ ([] : List Byte).length ≠ 12 := by decide

/-- A machine whose host next takes the action `e`. -/
def doing (s : State) (e : HostEvent) : State := s.pushHost e

theorem witness_StepRunsDecodedCommand :
    (doing base (.command 0x000000000000000000000003#96)).host = .command 0x000000000000000000000003#96 :: [] ∧
      decode 0x000000000000000000000003#96 = .ok .finish := by decide
theorem witness_IdleBlockHoldsItsState : base.host = [] := by decide
theorem witness_PresentedBufferIsInForce :
    (doing base (.present ascending)).host = .present ascending :: [] ∧
      ascending.length ≤ base.params.maxBufLen ∧ 15 < ascending.length := by decide
theorem witness_PresentedBufferIsInForce_atLimit :
    let s := doing { base with params := { Config.defaults with maxBufLen := 1 } } (.present [0x00#8])
    s.host = .present [0x00#8] :: [] ∧ [0x00#8].length ≤ s.params.maxBufLen := by decide
theorem witness_PresentedBufferIsInForce_tooLong :
    let s := doing { base with params := { Config.defaults with maxBufLen := 1 } } (.present [0x00#8, 0x00#8])
    s.host = .present [0x00#8, 0x00#8] :: [] ∧ s.params.maxBufLen < [0x00#8, 0x00#8].length := by decide
theorem witness_PowerOnLoadsResetSeed : (doing fifteen .powerOn).host = .powerOn :: [] := by decide
theorem witness_ReservedWordsAreRefused :
    (doing base (.command 0x000000010000000000000001#96)).host = .command 0x000000010000000000000001#96 :: [] ∧
      step (doing base (.command 0x000000010000000000000001#96)) = .refused (.reservedEncoding base.markRefused) :=
  ⟨by decide, rfl⟩
theorem witness_ReservedWordsAreRefused_clauses :
    BitVec.extractLsb' 8 24 0x000000000000000000000103#96 ≠ 0 ∧
      (BitVec.extractLsb' 0 8 0x000000000000000000000004#96 ≠ 0x03#8) ∧
      (BitVec.extractLsb' 0 8 0x000000010000000000000001#96 = 0x01#8 ∧
        BitVec.extractLsb' 64 32 0x000000010000000000000001#96 ≠ 0) ∧
      (BitVec.extractLsb' 0 8 0x000000000000000100000003#96 = 0x03#8 ∧
        BitVec.extractLsb' 32 32 0x000000000000000100000003#96 ≠ 0) := by decide
theorem witness_RefusedMarkIsSticky_next :
    step (doing base.markRefused .powerOn) = .next (powerOn base.markRefused) := rfl
theorem witness_RefusedMarkIsSticky_refused :
    step (doing base (.command 0x000000000000000000000000#96)) = .refused (.reservedEncoding base.markRefused) := rfl
theorem witness_ParametersAreFixed : step base = .next base := rfl

theorem witness_ResetIsIndistinguishableFromPowerOn :
    let u : State := { fifteen with params := { Config.defaults with resetSeed := 7 } }
    u.params = { (finished .refuse).params with resetSeed := 7 } ∧ u.dbuf = (finished .refuse).dbuf ∧
      ∀ e ∈ [HostEvent.present [0x00#8], .command 0x000000000000000000000003#96], e ≠ .powerOn := by decide

theorem witness_UpdateAfterFinishIsRefused :
    (finished .refuse).hasher.fin = true ∧ (finished .refuse).params.postFinishUpdate = .refuse := by decide
/-- V-U4, V-U5, V-U7: one witness for each clause of the bounds test, at the sum 2^31 for the last. -/
theorem witness_BadRangeRaisesInvalidArgument :
    base.MayUpdate ∧ ((-1 : Int) < 0) ∧ ((base.dbuf.len : Int) < 0x7FFFFFFF + 1) ∧ ((base.dbuf.len : Int) < 17 + 0) := by
  decide
theorem test_update_bad_sum : (next? (exec (.update 0x7FFFFFFF 1) base)).map
    (fun t => (t.responses.map (fun r => r.status), t.hasher.pendingLen)) = some ([0x01#8], 0) := by decide
theorem witness_ShortUpdateAccumulates :
    base.MayUpdate ∧ base.RangeFits 1 15 ∧ (base.hasher.pendingLen.val : Int) + 15 < 16 := by decide
theorem witness_UpdateMixesCompleteGroups : (finished .continue_).MayUpdate ∧ (finished .continue_).RangeFits 0 16 := by
  decide
theorem witness_LongUpdateWritesPend_empty :
    base.MayUpdate ∧ base.RangeFits 0 16 ∧ 16 ≤ base.hasher.pendingLen.val + (16 : Int).toNat := by decide
theorem witness_LongUpdateWritesPend_pending :
    fifteen.MayUpdate ∧ fifteen.RangeFits 15 1 ∧ 16 ≤ fifteen.hasher.pendingLen.val + (1 : Int).toNat := by decide
/-- V-U2: offset = buf_len. -/
theorem witness_EmptyUpdateChangesNothing : base.MayUpdate ∧ (0 : Int) ≤ 16 ∧ (16 : Int) ≤ base.dbuf.len := by decide
theorem witness_SixteenthByteDrainsPend :
    fifteen.MayUpdate ∧ fifteen.RangeFits 15 1 ∧ fifteen.hasher.pendingLen = 15 := by decide
/-- The buffer with its first byte changed, read from offset 1 on. -/
theorem witness_UpdateReadsOnlyItsRange :
    base.MayUpdate ∧ base.RangeFits 1 2 ∧
      (∀ a : Nat, a < 3 → (1 : Int) ≤ a → (Memory.write base.dbuf.mem 0 0xFF#8).read a = base.dbuf.mem.read a) ∧
      (Memory.write base.dbuf.mem 0 0xFF#8).read 0 ≠ base.dbuf.mem.read 0 := by decide
/-- A range that does not fit asks nothing of the buffer. -/
theorem witness_UpdateReadsOnlyItsRange_unfit : base.MayUpdate ∧ ¬base.RangeFits 16 1 := by decide
theorem witness_UpdateReadsOnlyItsRange_refused : ¬(finished .refuse).MayUpdate := by decide
theorem witness_UpdateAllIsAlwaysInRange : base.MayUpdate := by decide
theorem witness_ChunkingInvariance : 3 + [5, 0, 8].sum ≤ base.dbuf.len := by decide
theorem witness_StateFollowsTheStream : 0 + [15, 1].sum ≤ base.dbuf.len := by decide
theorem witness_DigestOfMessageInPieces : 0 + ([] : List Nat).sum ≤ base.dbuf.len := by decide
theorem witness_TailStepsFoldWordsAndBytes : [0x61#8, 0x62#8].length < 3 := by decide
theorem witness_DigestIgnoresUnusedInputs :
    fifteen.hasher.totalLen.toNat < 16 ∧ 16 ≤ (0x10#64).toNat ∧ 16 ≤ (0x100000010#64).toNat ∧
      (0x100000010#64).setWidth 32 = (0x10#64).setWidth 32 := by decide
theorem witness_EveryCommandGivesOneResponse_next :
    exec .finish base = .next ((base.setHasher base.hasher.setFin).respondDigest base.hasher.finalHash) := rfl
theorem witness_EveryCommandGivesOneResponse_refused :
    exec (.update (-1) 4) (finished .refuse) = .refused (.updateAfterFinish (finished .refuse).markRefused) := rfl
theorem witness_ElementsAreWrittenByTheirCommands :
    exec (.reset 1) fifteen =
      .next ((fifteen.setHasher (HasherState.init 1 fifteen.hasher.pend)).respondStatus statusOk) := rfl
/-- Two states that differ in the stale byte Pend[15] only. -/
theorem witness_StaleBytesAreNeverSeen :
    let t := fifteen.setHasher { fifteen.hasher with pend := pendStore fifteen.hasher.pend 15 [0xAA#8] }
    fifteen.hasher.ObsEq t.hasher ∧ fifteen.dbuf = t.dbuf ∧ fifteen.params = t.params ∧ fifteen ≠ t := by decide
theorem witness_QueuedCommandsComposeInOrder :
    (∀ i ∈ [Instr.reset 1, .update 0 16, .finish], i.WellFormed) ∧
      (base.setHost ([Instr.reset 1, .update 0 16, .finish].map fun i => .command (encode i))).host =
        [Instr.reset 1, .update 0 16, .finish].map fun i => .command (encode i) :=
  ⟨fun i hi => (Instr.wf_iff i).1 (by revert i hi; decide), rfl⟩
theorem witness_CompletedRunIsUnmarked : base.refused = false ∧ Host.Core.run Sys2Proof.core 0 base = .next base :=
  ⟨rfl, rfl⟩
theorem witness_StepKeepsInvariant : base.Inv ∧ step base = .next base := ⟨by decide, rfl⟩
theorem witness_StepKeepsInvariant_pending : fifteen.Inv := by decide

end Sys2Proof.Machine.Tests
end

/-! The statements about 00_scope.md: rotation (R12), word assembly (R13), signed operands (R16) and the fixed
parameters (R8). -/

namespace Sys2Proof.Machine

/-! ### Rotation -/

/-- For a count below the word's width the two shifts are the library's rotation (R12). -/
theorem rotl32_eq_rotateLeft (x : Word) {r : Nat} (hr : r < 32) : rotl32 x r = x.rotateLeft r := by
  rw [rotl32, BitVec.rotateLeft_def, Nat.mod_eq_of_lt hr]

/-- Bit i of the rotated word comes from r places below, around the end of the word (R12). -/
theorem rotl32_getLsbD (x : Word) {r i : Nat} (hr : r < 32) (hi : i < 32) :
    (rotl32 x r).getLsbD i = x.getLsbD ((i + (32 - r)) % 32) := by
  rw [rotl32_eq_rotateLeft x hr, BitVec.getLsbD_rotateLeft_of_le hr]
  by_cases hir : i < r
  · rw [show (i + (32 - r)) % 32 = 32 - r + i by omega]
    simp [hir]
  · rw [show (i + (32 - r)) % 32 = i - r by omega]
    simp [hir, hi]

/-! ### Word assembly -/

/-- OR-ing a byte in above the bits of `x` adds it at its place value. -/
theorem or_zext32_shiftLeft_toNat (x : Word) (b : Byte) {k : Nat} (hx : x.toNat < 2 ^ k) (hk : k + 8 ≤ 32) :
    (x ||| zext32 b <<< k).toNat = x.toNat + 2 ^ k * b.toNat := by
  have hb : b.toNat * 2 ^ k < 2 ^ 32 :=
    calc b.toNat * 2 ^ k < 2 ^ 8 * 2 ^ k := Nat.mul_lt_mul_of_pos_right b.isLt (Nat.two_pow_pos k)
      _ = 2 ^ (k + 8) := by rw [Nat.pow_add, Nat.mul_comm]
      _ ≤ 2 ^ 32 := Nat.pow_le_pow_right (by decide) hk
  have hshift : (zext32 b <<< k).toNat = b.toNat <<< k := by
    rw [zext32, BitVec.toNat_shiftLeft, BitVec.toNat_setWidth_of_le (by decide), Nat.shiftLeft_eq, Nat.mod_eq_of_lt hb]
  rw [BitVec.toNat_or, hshift, Nat.or_comm, ← Nat.shiftLeft_add_eq_or_of_lt hx, Nat.shiftLeft_eq, Nat.add_comm,
    Nat.mul_comm]

/-- The value of a word assembled from four bytes, each byte taken at its place value (R13). -/
theorem le32_toNat (b0 b1 b2 b3 : Byte) :
    (le32 b0 b1 b2 b3).toNat = b0.toNat + 2 ^ 8 * b1.toNat + 2 ^ 16 * b2.toNat + 2 ^ 24 * b3.toNat := by
  have h0 : (zext32 b0).toNat = b0.toNat := BitVec.toNat_setWidth_of_le (by decide)
  have h1 := or_zext32_shiftLeft_toNat (zext32 b0) b1 (k := 8) (by omega) (by decide)
  have h2 := or_zext32_shiftLeft_toNat _ b2 (k := 16) (by rw [h1]; omega) (by decide)
  have h3 := or_zext32_shiftLeft_toNat _ b3 (k := 24) (by rw [h2]; omega) (by decide)
  rw [le32, h3, h2, h1, h0]

/-! ### Signed operands -/

/-- The operands of a decoded UPDATE are the signed values of its fields A and B (R16, R74). -/
theorem decode_update_operands {w : CmdWord} {offset count : Int} (h : decode w = .ok (.update offset count)) :
    offset = w.a.toInt ∧ count = w.b.toInt := by
  obtain ⟨-, ⟨-, -, hi⟩ | ⟨-, hi⟩ | ⟨-, -, -, hi⟩⟩ := decode_ok h
  · cases hi
  · obtain ⟨hoffset, hcount⟩ := Instr.update.inj hi
    exact ⟨hoffset.trans (sint32_eq_toInt _), hcount.trans (sint32_eq_toInt _)⟩
  · cases hi

/-- The range fits the buffer when no clause of check 2 of R111 holds. -/
theorem outOfRange_eq_false_iff (offset count : Int) (n : Nat) :
    outOfRange offset count n = false ↔ 0 ≤ offset ∧ 0 ≤ count ∧ offset + count ≤ n := by
  rw [← Bool.not_eq_true, outOfRange_iff]
  omega

/-! ### Fixed parameters -/

theorem exec_params {i : Instr} {s t : State} (h : exec i s = .next t) : t.params = s.params := by
  obtain ⟨_, _, rfl⟩ | ⟨_, _, _, _, _, rfl⟩ | ⟨_, _, _, _, _, rfl⟩ | ⟨_, rfl⟩ := exec_next_cases h <;> simp

theorem hostEvent_params {e : HostEvent} {s t : State} (h : hostEvent e s = .next t) : t.params = s.params := by
  obtain ⟨_, _, _, _, hexec⟩ | ⟨_, _, _, rfl⟩ | ⟨_, rfl⟩ := hostEvent_next_cases h
  · exact exec_params hexec
  · exact State.setDbuf_params _ _
  · exact powerOn_params _

theorem step_params {s t : State} (h : step s = .next t) : t.params = s.params := by
  obtain ⟨-, hidle⟩ | ⟨e, rest, -, hact⟩ := step_cases s
  · rw [Host.Outcome.next.inj (h.symm.trans hidle)]
  · have hrest : t.params = (s.setHost rest).params := hostEvent_params (hact.symm.trans h)
    exact hrest.trans (State.setHost_params s rest)

/-! ### The obligations -/

/-- Settles O1: a count from 1 to 31 is below the word's width. -/
theorem rotationIsCircular : Obligations.RotationIsCircular := by
  intro x r _ hr
  have hlt : r < 32 := Nat.lt_succ_of_le hr
  exact ⟨rotl32_eq_rotateLeft x hlt, fun _ hi => rotl32_getLsbD x hlt hi⟩

/-- Settles O2, one byte at a time from the least significant. -/
theorem wordAssemblyIsLittleEndian : Obligations.WordAssemblyIsLittleEndian := le32_toNat

/-- Settles O3: the reading of a field is the definition of `sint32`, and the decoder applies it to A and B. -/
theorem signedOperandsAreExact : Obligations.SignedOperandsAreExact :=
  ⟨fun _ => rfl, fun _ _ _ h => decode_update_operands h, outOfRange_eq_false_iff⟩

/-- Settles O18, from what a command, a host action and a step can do. -/
theorem parametersAreFixed : Obligations.ParametersAreFixed := fun _ _ h => step_params h

end Sys2Proof.Machine

/-! The statements about 10_state.md: which command writes which element (R20), the invariant (R29, R50), the refused
mark (R34), the stale bytes of Pend (R35), and the values at power-on (R37). -/

namespace Sys2Proof.Machine

/-! ### What no command writes -/

/-- The buffer and the list of actions are the host's (R14, R31), and no command that answers a next state sets or
clears the mark (R34). -/
theorem exec_frame {i : Instr} {s t : State} (h : exec i s = .next t) :
    t.dbuf = s.dbuf ∧ t.refused = s.refused ∧ t.host = s.host := by
  obtain ⟨_, _, rfl⟩ | ⟨_, _, _, _, _, rfl⟩ | ⟨_, _, _, _, _, rfl⟩ | ⟨_, rfl⟩ := exec_next_cases h <;> simp

/-! ### The elements of HasherState, command by command -/

/-- RESET writes every element but Pend (R101, R102). -/
theorem exec_reset_hasher {x : Word} {s t : State} (h : exec (.reset x) s = .next t) :
    t.hasher = HasherState.init x s.hasher.pend := by
  rw [exec_reset] at h
  rw [← Host.Outcome.next.inj h, State.respondStatus_hasher, State.setHasher_hasher]

/-- UPDATE leaves the hasher as it was, or takes in the bytes of its range (R112, R203). -/
theorem exec_update_hasher {offset count : Int} {s t : State} (h : exec (.update offset count) s = .next t) :
    t.hasher = s.hasher ∨ t.hasher = s.hasher.absorb (s.dbuf.slice offset.toNat count.toNat) := by
  obtain ⟨_, hi, _⟩ | ⟨_, _, hi, _, _, rfl⟩ | ⟨_, _, hi, _, _, rfl⟩ | ⟨hi, _⟩ := exec_next_cases h <;> cases hi
  · exact .inl (State.respondStatus_hasher _ _)
  · exact .inr (State.respondStatus_hasher _ _)

/-- FINISH writes fin and no other element (R149). -/
theorem exec_finish_hasher {s t : State} (h : exec .finish s = .next t) : t.hasher = s.hasher.setFin := by
  rw [exec_finish] at h
  rw [← Host.Outcome.next.inj h, State.respondDigest_hasher, State.setHasher_hasher]

/-! ### The invariant -/

/-- pending_len = total_len mod 16 (R29). -/
def HasherState.LengthsAgree (h : HasherState) : Prop := h.pendingLen.val = h.totalLen.toNat % 16

theorem init_lengthsAgree (x : Word) (p : Pend) : (HasherState.init x p).LengthsAgree := rfl

theorem setFin_lengthsAgree {h : HasherState} (hh : h.LengthsAgree) : h.setFin.LengthsAgree := hh

/-- 2^64 is a multiple of 16, so the wrap of total_len does not show mod 16 (R29). -/
theorem absorb_lengthsAgree {h : HasherState} (hh : h.LengthsAgree) (d : List Byte) :
    (h.absorb d).LengthsAgree := by
  unfold HasherState.LengthsAgree at hh ⊢
  rw [absorb_pendingLen, absorb_totalLen, BitVec.toNat_add, BitVec.toNat_ofNat, hh]
  omega

theorem exec_lengthsAgree {i : Instr} {s t : State} (hs : s.hasher.LengthsAgree) (h : exec i s = .next t) :
    t.hasher.LengthsAgree := by
  cases i with
  | reset x => rw [exec_reset_hasher h]; exact init_lengthsAgree _ _
  | update offset count =>
    obtain hsame | habsorb := exec_update_hasher h
    · rw [hsame]; exact hs
    · rw [habsorb]; exact absorb_lengthsAgree hs _
  | finish => rw [exec_finish_hasher h]; exact setFin_lengthsAgree hs

/-- The buffer is in canonical form, lists no byte outside itself, and fits the port (R50). -/
def State.BufferFits (s : State) : Prop :=
  s.dbuf.mem.wf = true ∧ s.dbuf.inside = true ∧ s.dbuf.len ≤ s.params.maxBufLen

theorem inv_iff (s : State) : s.Inv ↔ s.hasher.LengthsAgree ∧ s.BufferFits := Iff.rfl

theorem exec_bufferFits {i : Instr} {s t : State} (hs : s.BufferFits) (h : exec i s = .next t) : t.BufferFits := by
  obtain ⟨hdbuf, -, -⟩ := exec_frame h
  rw [State.BufferFits, hdbuf, exec_params h]
  exact hs

theorem setDbuf_bufferFits {s : State} {bs : List Byte} (h : bs.length ≤ s.params.maxBufLen) :
    (s.setDbuf (Dbuf.ofBytes bs)).BufferFits :=
  ⟨Memory.ofBytes_wf bs, Dbuf.ofBytes_inside bs, h⟩

theorem hostEvent_inv {e : HostEvent} {s t : State} (hs : s.Inv) (h : hostEvent e s = .next t) : t.Inv := by
  rw [inv_iff] at hs ⊢
  obtain ⟨hlengths, hbuffer⟩ := hs
  obtain ⟨_, _, _, _, hexec⟩ | ⟨_, _, hfits, rfl⟩ | ⟨_, rfl⟩ := hostEvent_next_cases h
  · exact ⟨exec_lengthsAgree hlengths hexec, exec_bufferFits hbuffer hexec⟩
  · exact ⟨hlengths, setDbuf_bufferFits hfits⟩
  · exact ⟨init_lengthsAgree _ _, hbuffer⟩

theorem step_inv {s t : State} (hs : s.Inv) (h : step s = .next t) : t.Inv := by
  obtain ⟨-, hidle⟩ | ⟨e, rest, -, hact⟩ := step_cases s
  · rw [← Host.Outcome.next.inj (hidle.symm.trans h)]; exact hs
  · have hrest : (s.setHost rest).Inv := hs
    exact hostEvent_inv hrest (hact.symm.trans h)

/-! ### The refused mark -/

theorem hostEvent_mark {e : HostEvent} {s t : State} (h : hostEvent e s = .next t) :
    t.refused = s.refused ∨ (e = .powerOn ∧ t.refused = false) := by
  obtain ⟨_, _, _, _, hexec⟩ | ⟨_, _, _, rfl⟩ | ⟨he, rfl⟩ := hostEvent_next_cases h
  · obtain ⟨-, hmark, -⟩ := exec_frame hexec
    exact .inl hmark
  · exact .inl (State.setDbuf_refused _ _)
  · exact .inr ⟨he, powerOn_refused _⟩

theorem step_mark {s t : State} (h : step s = .next t) :
    t.refused = s.refused ∨ ∃ rest, s.host = .powerOn :: rest ∧ t.refused = false := by
  obtain ⟨-, hidle⟩ | ⟨e, rest, hhost, hact⟩ := step_cases s
  · rw [Host.Outcome.next.inj (hidle.symm.trans h)]
    exact .inl rfl
  · obtain hsame | ⟨rfl, hclear⟩ := hostEvent_mark (hact.symm.trans h)
    · exact .inl hsame
    · exact .inr ⟨rest, hhost, hclear⟩

/-- Either refusal carries the machine with only the action taken and the mark set (R205). -/
theorem step_refused_cases {s : State} {r : Refusal} (h : step s = .refused r) :
    ∃ rest, r = .reservedEncoding (s.setHost rest).markRefused ∨
      r = .updateAfterFinish (s.setHost rest).markRefused := by
  obtain ⟨-, hidle⟩ | ⟨e, rest, -, hact⟩ := step_cases s
  · cases hidle.symm.trans h
  · obtain ⟨_, _, _, _, hr⟩ | ⟨_, _, _, _, _, _, hr⟩ := hostEvent_refused_cases (hact.symm.trans h)
    · exact ⟨rest, .inl hr⟩
    · exact ⟨rest, .inr hr⟩

/-! ### Observational equivalence is kept by every operation on the hasher (R35) -/

/-- With no byte pending every byte of Pend is stale. -/
theorem init_obsEq (x : Word) (p q : Pend) : (HasherState.init x p).ObsEq (HasherState.init x q) :=
  ⟨rfl, rfl, rfl, rfl, rfl, rfl⟩

theorem setFin_obsEq {h k : HasherState} (hk : h.ObsEq k) : h.setFin.ObsEq k.setFin := by
  obtain ⟨hseed, hlanes, htotal, hpending, -, hvalid⟩ := hk
  exact ⟨hseed, hlanes, htotal, hpending, rfl, hvalid⟩

/-- What an accepted UPDATE leaves is a function of the valid bytes and the data (R114, R121). -/
theorem absorb_obsEq {h k : HasherState} (hk : h.ObsEq k) (d : List Byte) : (h.absorb d).ObsEq (k.absorb d) := by
  obtain ⟨hseed, hlanes, htotal, hpending, hfin, hvalid⟩ := hk
  refine ⟨?_, ?_, ?_, Fin.ext ?_, ?_, ?_⟩
  · rw [absorb_seed, absorb_seed, hseed]
  · rw [absorb_lanes, absorb_lanes, hlanes, hvalid]
  · rw [absorb_totalLen, absorb_totalLen, htotal]
  · rw [absorb_pendingLen, absorb_pendingLen, hpending]
  · rw [absorb_fin, absorb_fin, hfin]
  · rw [absorb_validBytes, absorb_validBytes, hvalid]

theorem finalHash_of_obsEq {h k : HasherState} (hk : h.ObsEq k) : h.finalHash = k.finalHash := by
  obtain ⟨hseed, hlanes, htotal, -, -, hvalid⟩ := hk
  exact finalHash_congr hseed hlanes htotal hvalid

/-! ### Machines that answer alike -/

/-- What a command's answer rests on is the same in the two machines: the hasher up to stale bytes, the buffer, and the
parameters that a command reads. RESET_SEED is not among them: only a power-on reads it. -/
structure State.Alike (s t : State) : Prop where
  hasher : s.hasher.ObsEq t.hasher
  dbuf : s.dbuf = t.dbuf
  maxBufLen : s.params.maxBufLen = t.params.maxBufLen
  postFinishUpdate : s.params.postFinishUpdate = t.params.postFinishUpdate

namespace State.Alike

variable {s t : State}

theorem updateForbidden (h : s.Alike t) : s.updateForbidden = t.updateForbidden := by
  obtain ⟨-, -, -, -, hfin, -⟩ := h.hasher
  rw [State.updateForbidden, State.updateForbidden, hfin, h.postFinishUpdate]

theorem setHasher (h : s.Alike t) {x y : HasherState} (hxy : x.ObsEq y) : (s.setHasher x).Alike (t.setHasher y) :=
  ⟨hxy, h.dbuf, h.maxBufLen, h.postFinishUpdate⟩

theorem setDbuf (h : s.Alike t) (d : Dbuf) : (s.setDbuf d).Alike (t.setDbuf d) :=
  ⟨h.hasher, rfl, h.maxBufLen, h.postFinishUpdate⟩

theorem respondStatus (h : s.Alike t) (b : Byte) : (s.respondStatus b).Alike (t.respondStatus b) :=
  ⟨h.hasher, h.dbuf, h.maxBufLen, h.postFinishUpdate⟩

theorem respondDigest (h : s.Alike t) (x : Word) : (s.respondDigest x).Alike (t.respondDigest x) :=
  ⟨h.hasher, h.dbuf, h.maxBufLen, h.postFinishUpdate⟩

theorem powerOn (h : s.Alike t) (hseed : s.params.resetSeed = t.params.resetSeed) :
    (powerOn s).Alike (powerOn t) := by
  refine ⟨?_, h.dbuf, h.maxBufLen, h.postFinishUpdate⟩
  rw [powerOn_hasher, powerOn_hasher, hseed]
  exact init_obsEq _ _ _

end State.Alike

/-! ### What the host sees of one action -/

/-- What the host sees of the responses given from `s` to `t`, the machine after the action `e`. -/
def seenSince (e : HostEvent) (s t : State) : List Seen := (t.responses.drop s.responses.length).map (seenOf e)

theorem seenSince_silent {e : HostEvent} {s t : State} (h : t.responses = s.responses) : seenSince e s t = [] := by
  rw [seenSince, h, List.drop_length, List.map_nil]

theorem seenSince_respond {e : HostEvent} {s t : State} {r : Response} (h : t.responses = s.responses ++ [r]) :
    seenSince e s t = [seenOf e r] := by
  rw [seenSince, h, List.drop_left, List.map_singleton]

/-- The digest of a response to any action but FINISH is not to be read (R53). -/
theorem seenOf_of_not_isFinish {e : HostEvent} (he : e.isFinish = false) (r : Response) :
    seenOf e r = .response r.status none := by
  rw [seenOf, he]; rfl

/-- The one word that shows its digest is FINISH's (R74). -/
theorem command_isFinish_eq_false {w : CmdWord} {i : Instr} (hd : decode w = .ok i) (hi : i ≠ .finish) :
    (HostEvent.command w).isFinish = false := by
  refine decide_eq_false fun hw => hi ?_
  have hfinish : decode w = .ok .finish := by rw [hw]; decide
  exact Except.ok.inj (hd.symm.trans hfinish)

/-- Two results of the action `e`, taken in `s` and in `t`, between which the host sees no difference: the same stop, or
next states that are alike after the same responses. -/
inductive AnswersAlike (e : HostEvent) (s t : State) : Result → Result → Prop
  | next {s' t' : State} (halike : s'.Alike t') (hseen : seenSince e s s' = seenSince e t t') :
      AnswersAlike e s t (.next s') (.next t')
  | fault (f : Fault) : AnswersAlike e s t (.fault f) (.fault f)
  | reservedEncoding (s' t' : State) :
      AnswersAlike e s t (.refused (.reservedEncoding s')) (.refused (.reservedEncoding t'))
  | updateAfterFinish (s' t' : State) :
      AnswersAlike e s t (.refused (.updateAfterFinish s')) (.refused (.updateAfterFinish t'))

section
variable {e : HostEvent} {s t s' t' : State}

/-- A status with no digest looks the same, whatever free values fill its digest bytes (R53). -/
theorem answersAlike_respondStatus (he : e.isFinish = false) (halike : s'.Alike t')
    (hs : s'.responses = s.responses) (ht : t'.responses = t.responses) (b : Byte) :
    AnswersAlike e s t (.next (s'.respondStatus b)) (.next (t'.respondStatus b)) := by
  refine .next (halike.respondStatus b) ?_
  rw [seenSince_respond (by rw [State.respondStatus_responses, hs]),
    seenSince_respond (by rw [State.respondStatus_responses, ht]), seenOf_of_not_isFinish he, seenOf_of_not_isFinish he]

theorem answersAlike_respondDigest (halike : s'.Alike t')
    (hs : s'.responses = s.responses) (ht : t'.responses = t.responses) (x : Word) :
    AnswersAlike e s t (.next (s'.respondDigest x)) (.next (t'.respondDigest x)) := by
  refine .next (halike.respondDigest x) ?_
  rw [seenSince_respond (by rw [State.respondDigest_responses, hs]),
    seenSince_respond (by rw [State.respondDigest_responses, ht])]

theorem answersAlike_silent (halike : s'.Alike t') (hs : s'.responses = s.responses)
    (ht : t'.responses = t.responses) : AnswersAlike e s t (.next s') (.next t') :=
  .next halike (by rw [seenSince_silent hs, seenSince_silent ht])

/-- RESET leaves only Pend as it was, and all of Pend is then stale. -/
theorem exec_reset_alike (he : e.isFinish = false) (h : s.Alike t) (x : Word) :
    AnswersAlike e s t (exec (.reset x) s) (exec (.reset x) t) := by
  rw [exec_reset, exec_reset]
  exact answersAlike_respondStatus he (h.setHasher (init_obsEq _ _ _)) (State.setHasher_responses _ _)
    (State.setHasher_responses _ _) _

/-- Both checks of R111 come out the same, and so does the data taken in. -/
theorem exec_update_alike (he : e.isFinish = false) (h : s.Alike t) (offset count : Int) :
    AnswersAlike e s t (exec (.update offset count) s) (exec (.update offset count) t) := by
  cases hforbidden : s.updateForbidden with
  | true =>
    rw [exec_update_forbidden hforbidden, exec_update_forbidden (h.updateForbidden ▸ hforbidden)]
    exact .updateAfterFinish _ _
  | false =>
    have hforbidden' : t.updateForbidden = false := h.updateForbidden ▸ hforbidden
    cases hrange : outOfRange offset count s.dbuf.len with
    | true =>
      rw [exec_update_invalid hforbidden hrange, exec_update_invalid hforbidden' (h.dbuf ▸ hrange)]
      exact answersAlike_respondStatus he h rfl rfl _
    | false =>
      rw [exec_update_accepted hforbidden hrange, exec_update_accepted hforbidden' (h.dbuf ▸ hrange), h.dbuf]
      exact answersAlike_respondStatus he (h.setHasher (absorb_obsEq h.hasher _)) (State.setHasher_responses _ _)
        (State.setHasher_responses _ _) _

/-- FINISH shows the same digest. -/
theorem exec_finish_alike (h : s.Alike t) : AnswersAlike e s t (exec .finish s) (exec .finish t) := by
  rw [exec_finish, exec_finish, finalHash_of_obsEq h.hasher]
  exact answersAlike_respondDigest (h.setHasher (setFin_obsEq h.hasher)) (State.setHasher_responses _ _)
    (State.setHasher_responses _ _) _

theorem issue_alike (h : s.Alike t) (w : CmdWord) : AnswersAlike (.command w) s t (issue w s) (issue w t) := by
  cases hd : decode w with
  | error x =>
    rw [issue_reserved hd, issue_reserved hd]
    exact .reservedEncoding _ _
  | ok i =>
    rw [issue_ok hd, issue_ok hd]
    cases i with
    | reset x => exact exec_reset_alike (command_isFinish_eq_false hd (by simp)) h x
    | update offset count => exact exec_update_alike (command_isFinish_eq_false hd (by simp)) h offset count
    | finish => exact exec_finish_alike h

theorem presentBuffer_alike (h : s.Alike t) (bs : List Byte) :
    AnswersAlike (.present bs) s t (presentBuffer bs s) (presentBuffer bs t) := by
  by_cases hfits : bs.length ≤ s.params.maxBufLen
  · rw [presentBuffer_fits hfits, presentBuffer_fits (h.maxBufLen ▸ hfits)]
    exact answersAlike_silent (h.setDbuf _) (State.setDbuf_responses _ _) (State.setDbuf_responses _ _)
  · rw [presentBuffer_tooLong hfits, presentBuffer_tooLong (h.maxBufLen ▸ hfits)]
    exact .fault _

theorem powerOn_alike (h : s.Alike t) (hseed : s.params.resetSeed = t.params.resetSeed) :
    AnswersAlike .powerOn s t (.next (powerOn s)) (.next (powerOn t)) :=
  answersAlike_silent (h.powerOn hseed) (powerOn_responses _) (powerOn_responses _)

/-- Alike machines answer every action of the host alike, a power-on if they load the same seed. -/
theorem hostEvent_alike (h : s.Alike t) (hseed : e = .powerOn → s.params.resetSeed = t.params.resetSeed) :
    AnswersAlike e s t (hostEvent e s) (hostEvent e t) := by
  cases e with
  | command w => exact issue_alike h w
  | present bs => exact presentBuffer_alike h bs
  | powerOn => exact powerOn_alike h (hseed rfl)

end

/-! ### What the host sees of a run -/

theorem seenRun_cons_next {e : HostEvent} {s s' : State} (h : hostEvent e s = .next s') (es : List HostEvent) :
    seenRun (e :: es) s = seenSince e s s' ++ seenRun es s' := by
  rw [seenRun, h]; rfl

theorem seenRun_cons_fault {e : HostEvent} {s : State} {f : Fault} (h : hostEvent e s = .fault f)
    (es : List HostEvent) : seenRun (e :: es) s = [.bufferTooLong] := by
  rw [seenRun, h]

theorem seenRun_cons_reservedEncoding {e : HostEvent} {s s' : State}
    (h : hostEvent e s = .refused (.reservedEncoding s')) (es : List HostEvent) :
    seenRun (e :: es) s = [.reservedEncoding] := by
  rw [seenRun, h]

theorem seenRun_cons_updateAfterFinish {e : HostEvent} {s s' : State}
    (h : hostEvent e s = .refused (.updateAfterFinish s')) (es : List HostEvent) :
    seenRun (e :: es) s = [.updateAfterFinish] := by
  rw [seenRun, h]

/-- Alike machines cannot be told apart by any sequence of host actions; where a power-on is among them, RESET_SEED has
to be the same too. -/
theorem seenRun_eq_of_alike (es : List HostEvent) {s t : State} (h : s.Alike t)
    (hseed : .powerOn ∈ es → s.params.resetSeed = t.params.resetSeed) : seenRun es s = seenRun es t := by
  induction es generalizing s t with
  | nil => rfl
  | cons e es ih =>
    have hanswer := hostEvent_alike (e := e) h fun he => hseed (he ▸ List.mem_cons_self)
    generalize hs : hostEvent e s = p at hanswer
    generalize ht : hostEvent e t = q at hanswer
    cases hanswer with
    | next halike hseen =>
      have hrest : .powerOn ∈ es → _ := fun hmem => hseed (List.mem_cons_of_mem e hmem)
      rw [← hostEvent_params hs, ← hostEvent_params ht] at hrest
      rw [seenRun_cons_next hs, seenRun_cons_next ht, hseen, ih halike hrest]
    | fault f => rw [seenRun_cons_fault hs, seenRun_cons_fault ht]
    | reservedEncoding => rw [seenRun_cons_reservedEncoding hs, seenRun_cons_reservedEncoding ht]
    | updateAfterFinish => rw [seenRun_cons_updateAfterFinish hs, seenRun_cons_updateAfterFinish ht]

/-! ### The obligations of 10_state.md -/

/-- Settles O42, by a simulation: machines that differ in stale bytes are alike, and stay so over every host action. -/
theorem staleBytesAreNeverSeen : Obligations.StaleBytesAreNeverSeen := fun _ _ es hobs hdbuf hparams =>
  seenRun_eq_of_alike es ⟨hobs, hdbuf, congrArg _ hparams, congrArg _ hparams⟩ fun _ => congrArg _ hparams

/-- Settles O46: the two lengths agree mod 16 and the buffer fits after every command and host action. -/
theorem stepKeepsInvariant : Obligations.StepKeepsInvariant := fun _ _ => step_inv

/-- Settles O17, from what a step that goes on and a step that is refused can do. -/
theorem refusedMarkIsSticky : Obligations.RefusedMarkIsSticky := by
  refine ⟨rfl, fun _ _ h => step_mark h, fun s r h => ?_⟩
  obtain ⟨rest, hr⟩ := step_refused_cases h
  exact ⟨(s.setHost rest).markRefused, hr, rfl, rfl, rfl⟩

/-- Settles O41, one command at a time. -/
theorem elementsAreWrittenByTheirCommands : Obligations.ElementsAreWrittenByTheirCommands := by
  intro i s t h
  obtain ⟨hdbuf, hmark, hhost⟩ := exec_frame h
  refine ⟨?_, hdbuf, fun a => by rw [hdbuf], exec_params h, hmark, hhost⟩
  cases i with
  | reset x =>
    dsimp only
    rw [exec_reset_hasher h]
    exact ⟨rfl, rfl, rfl, rfl⟩
  | update offset count =>
    obtain hsame | habsorb := exec_update_hasher h
    · exact ⟨by rw [hsame], by rw [hsame]⟩
    · exact ⟨by rw [habsorb, absorb_seed], by rw [habsorb, absorb_fin]⟩
  | finish =>
    dsimp only
    rw [exec_finish_hasher h]
    exact ⟨rfl, rfl, rfl, rfl, rfl, rfl⟩

/-- Settles O15: the lanes are sums of the constants of R9. -/
theorem resetStateHoldsInitValues : Obligations.ResetStateHoldsInitValues :=
  ⟨rfl, by decide, rfl, rfl, rfl, rfl, rfl⟩

/-- Settles O45: no byte is counted or pending, and the empty buffer fits every port. -/
theorem resetStateMeetsInvariant : Obligations.ResetStateMeetsInvariant := ⟨rfl, rfl, rfl, Nat.zero_le _⟩

end Sys2Proof.Machine

/-! The statements about 20_memory.md: the buffer port (R50), the bytes an UPDATE reads (R52, R58), the response port
(R53), and the order of queued commands (R62). -/

namespace Sys2Proof.Machine

/-! ### A step that takes a command word -/

/-- The decoder gives back every command whose operands fit their fields (R72, R74). -/
theorem decode_encode_of_wellFormed {i : Instr} (h : i.WellFormed) : decode (encode i) = .ok i := by
  cases i with
  | reset seed => rw [encode, decode_ofFields, if_pos rfl, if_pos rfl]
  | update offset count =>
    obtain ⟨hoffset, hcount⟩ := h
    rw [encode, decode_ofFields, if_neg (by decide), if_pos rfl, sint32_ofInt hoffset, sint32_ofInt hcount]
  | finish =>
    rw [encode, decode_ofFields, if_neg (by decide), if_neg (by decide), if_pos rfl, if_pos ⟨rfl, rfl⟩]

theorem step_command {s : State} {w : CmdWord} {rest : List HostEvent} {i : Instr}
    (hhost : s.host = .command w :: rest) (hd : decode w = .ok i) : step s = exec i (s.setHost rest) := by
  rw [step_event hhost, hostEvent, issue_ok hd]

/-! ### No command reads the list of actions still to come -/

theorem exec_setHost_of_next {i : Instr} {s t : State} (h : exec i s = .next t) (es : List HostEvent) :
    exec i (s.setHost es) = .next (t.setHost es) := by
  obtain ⟨x, rfl, rfl⟩ | ⟨_, _, rfl, hmay, hrange, rfl⟩ | ⟨_, _, rfl, hmay, hrange, rfl⟩ | ⟨rfl, rfl⟩ :=
    exec_next_cases h
  · exact exec_reset x (s.setHost es)
  · exact exec_update_invalid (s := s.setHost es) hmay hrange
  · exact exec_update_accepted (s := s.setHost es) hmay hrange
  · exact exec_finish (s.setHost es)

theorem exec_setHost_of_refused {i : Instr} {s : State} {r : Refusal} (h : exec i s = .refused r)
    (es : List HostEvent) : exec i (s.setHost es) = .refused (.updateAfterFinish (s.setHost es).markRefused) := by
  obtain ⟨⟨offset, count, rfl⟩, hforbidden, -⟩ := exec_refused_cases h
  exact exec_update_forbidden (s := s.setHost es) hforbidden offset count

/-! ### Queued commands -/

theorem execAll_cons_of_next {i : Instr} {s t : State} (h : exec i s = .next t) (is : List Instr) :
    execAll (i :: is) s = execAll is t := by
  rw [execAll, h]

theorem execAll_cons_of_refused {i : Instr} {s : State} {r : Refusal} (h : exec i s = .refused r)
    (is : List Instr) : execAll (i :: is) s = .refused r := by
  rw [execAll, h]

/-- Running the queued words of `is` is performing `is` with nothing queued: each step performs the first command, and
the commands behind it do not show until their turn (R62). -/
theorem run_queued_iff_execAll (is : List Instr) (hwf : ∀ i ∈ is, i.WellFormed) (s t : State) :
    Host.Core.run Sys2Proof.core is.length (s.setHost (is.map fun i => .command (encode i))) = .next t ↔
      execAll is (s.setHost []) = .next t := by
  induction is generalizing s with
  | nil => exact Iff.rfl
  | cons i is ih =>
    obtain ⟨hi, his⟩ := List.forall_mem_cons.1 hwf
    rw [List.map_cons, List.length_cons]
    generalize hes : is.map (fun i => HostEvent.command (encode i)) = es at ih ⊢
    have hstep : step (s.setHost (.command (encode i) :: es)) = exec i (s.setHost es) :=
      step_command rfl (decode_encode_of_wellFormed hi)
    cases h : exec i (s.setHost []) with
    | next u =>
      obtain ⟨-, -, hhost⟩ := exec_frame h
      have hnext : exec i (s.setHost es) = .next (u.setHost es) := exec_setHost_of_next h es
      have hu : u.setHost [] = u := by rw [State.setHost, ← State.setHost_host s [], ← hhost]
      rw [run_succ_of_next (hstep.trans hnext), execAll_cons_of_next h, ih his, hu]
    | fault f => exact absurd h (exec_ne_fault _ _ _)
    | refused r =>
      have hrefused : exec i (s.setHost es) = _ := exec_setHost_of_refused h es
      rw [run_succ_of_refused (hstep.trans hrefused), execAll_cons_of_refused h]
      exact iff_of_false nofun nofun

/-! ### The bytes an UPDATE reads -/

theorem updateForbidden_eq_false_iff (s : State) : s.updateForbidden = false ↔ s.MayUpdate := by
  rw [← Bool.not_eq_true, updateForbidden_iff, not_and_or, Bool.not_eq_true, State.MayUpdate]
  cases s.params.postFinishUpdate <;> simp

/-- Two stores that agree on an accepted UPDATE's range give it the same data (R58). -/
theorem slice_eq_of_agree {s : State} {m : Memory} {offset count : Int} (hfits : s.RangeFits offset count)
    (h : ∀ a : Nat, offset ≤ a → (a : Int) < offset + count → m.read a = s.dbuf.mem.read a) :
    Dbuf.slice { len := s.dbuf.len, mem := m } offset.toNat count.toNat = s.dbuf.slice offset.toNat count.toNat := by
  obtain ⟨hoffset, -, -⟩ := hfits
  exact Memory.readBytes_congr fun i hi => h (offset.toNat + i) (by omega) (by omega)

/-! ### The obligations of 20_memory.md -/

/-- Settles O43, by induction on the queue. -/
theorem queuedCommandsComposeInOrder : Obligations.QueuedCommandsComposeInOrder := by
  intro is s t hwf hhost
  have hs : s = s.setHost (is.map fun i => .command (encode i)) := by rw [← hhost]; rfl
  rw [hs]
  exact run_queued_iff_execAll is hwf s t

/-- Settles O13: the buffer in force is the byte store built from the bytes presented. -/
theorem presentedBufferIsInForce : Obligations.PresentedBufferIsInForce := by
  intro s bs rest hhost
  have hstep : step s = presentBuffer bs (s.setHost rest) := step_event hhost
  refine ⟨fun hfits => ⟨Memory.ofBytes 0 bs, ?_, fun i hi => ?_, Memory.ofBytes_wf bs⟩, fun hlong => ?_⟩
  · exact hstep.trans (presentBuffer_fits hfits)
  · rw [List.getD_eq_getElem _ _ hi, ← Memory.read_ofBytes 0 bs i hi, Nat.zero_add]
  · exact hstep.trans (presentBuffer_tooLong (Nat.not_le.2 hlong))

/-- Settles O29: neither check of R111 reads a byte, and the data taken in are the bytes of the range. -/
theorem updateReadsOnlyItsRange : Obligations.UpdateReadsOnlyItsRange := by
  intro s m offset count hagree
  refine ⟨fun t h => ?_, fun after h => ?_⟩
  · obtain ⟨_, hi, _⟩ | ⟨_, _, hi, hmay, hrange, rfl⟩ | ⟨_, _, hi, hmay, hrange, rfl⟩ | ⟨hi, _⟩ :=
      exec_next_cases h <;> cases hi
    · exact exec_update_invalid (s := s.setDbuf { len := s.dbuf.len, mem := m }) hmay hrange
    · have hfits := (outOfRange_eq_false_iff _ _ _).1 hrange
      have hslice := slice_eq_of_agree hfits (hagree ((updateForbidden_eq_false_iff s).1 hmay) hfits)
      rw [exec_update_accepted (s := s.setDbuf { len := s.dbuf.len, mem := m }) hmay hrange, State.setDbuf_dbuf,
        hslice]
      rfl
  · obtain ⟨-, hforbidden, hafter⟩ := exec_refused_cases h
    rw [Refusal.updateAfterFinish.inj hafter]
    exact exec_update_forbidden (s := s.setDbuf { len := s.dbuf.len, mem := m }) hforbidden offset count

/-- Settles O40, from the ways a command can end. -/
theorem everyCommandGivesOneResponse : Obligations.EveryCommandGivesOneResponse := by
  refine fun i s => ⟨fun t h => ?_, exec_ne_fault i s, fun r h => (exec_refused_cases h).1⟩
  obtain ⟨_, _, rfl⟩ | ⟨offset, count, hi, _, _, rfl⟩ | ⟨_, _, _, _, _, rfl⟩ | ⟨_, rfl⟩ := exec_next_cases h
  · exact ⟨_, State.respondStatus_responses _ _, .inl rfl⟩
  · exact ⟨_, State.respondStatus_responses _ _, .inr ⟨rfl, offset, count, hi⟩⟩
  · exact ⟨_, State.respondStatus_responses _ _, .inl rfl⟩
  · exact ⟨_, State.respondDigest_responses _ _, .inl rfl⟩

/-- Settles O11: the step takes the word off the list and the decoder gives the command. -/
theorem stepRunsDecodedCommand : Obligations.StepRunsDecodedCommand := fun _ _ _ _ => step_command

end Sys2Proof.Machine

/-! The statements about 30_encoding.md: the encoder and the decoder (R71 to R76), the wire (R79), reserved words (R75),
and the pseudo-commands (R81 to R83). -/

namespace Sys2Proof.Machine

/-! ### The words of each command -/

/-- Fields that match RESET's row of the opcode table decode to it, A as the seed (R74). -/
theorem decode_reset_of_fields {w : CmdWord} (hrsv : w.rsv = 0) (hop : w.op = 0x01) (hb : w.b = 0) :
    decode w = .ok (.reset w.a) := by
  rw [← CmdWord.ofFields_eq hrsv, hop, hb, decode_ofFields, if_pos rfl, if_pos rfl, CmdWord.ofFields_a]

/-- Fields that match UPDATE's row decode to it, A and B as its signed operands (R72, R74). -/
theorem decode_update_of_fields {w : CmdWord} (hrsv : w.rsv = 0) (hop : w.op = 0x02) :
    decode w = .ok (.update (sint32 w.a) (sint32 w.b)) := by
  rw [← CmdWord.ofFields_eq hrsv, hop, decode_ofFields, if_neg (by decide), if_pos rfl, CmdWord.ofFields_a,
    CmdWord.ofFields_b]

/-- Fields that match FINISH's row decode to it (R74). -/
theorem decode_finish_of_fields {w : CmdWord} (hrsv : w.rsv = 0) (hop : w.op = 0x03) (ha : w.a = 0) (hb : w.b = 0) :
    decode w = .ok .finish := by
  rw [← CmdWord.ofFields_eq hrsv, hop, ha, hb, decode_ofFields, if_neg (by decide), if_neg (by decide), if_pos rfl,
    if_pos ⟨rfl, rfl⟩]

theorem decode_reset_iff (w : CmdWord) :
    (∃ seed, decode w = .ok (.reset seed)) ↔ w.op = 0x01 ∧ w.rsv = 0 ∧ w.b = 0 := by
  refine ⟨fun ⟨seed, h⟩ => ?_, fun ⟨hop, hrsv, hb⟩ => ⟨w.a, decode_reset_of_fields hrsv hop hb⟩⟩
  obtain ⟨hrsv, ⟨hop, hb, -⟩ | ⟨-, hi⟩ | ⟨-, -, -, hi⟩⟩ := decode_ok h
  · exact ⟨hop, hrsv, hb⟩
  · cases hi
  · cases hi

theorem decode_update_iff (w : CmdWord) :
    (∃ offset count, decode w = .ok (.update offset count)) ↔ w.op = 0x02 ∧ w.rsv = 0 := by
  refine ⟨fun ⟨offset, count, h⟩ => ?_, fun ⟨hop, hrsv⟩ => ⟨_, _, decode_update_of_fields hrsv hop⟩⟩
  obtain ⟨hrsv, ⟨-, -, hi⟩ | ⟨hop, -⟩ | ⟨-, -, -, hi⟩⟩ := decode_ok h
  · cases hi
  · exact ⟨hop, hrsv⟩
  · cases hi

theorem decode_finish_iff (w : CmdWord) :
    decode w = .ok .finish ↔ w.op = 0x03 ∧ w.rsv = 0 ∧ w.a = 0 ∧ w.b = 0 := by
  refine ⟨fun h => ?_, fun ⟨hop, hrsv, ha, hb⟩ => decode_finish_of_fields hrsv hop ha hb⟩
  obtain ⟨hrsv, ⟨-, -, hi⟩ | ⟨-, hi⟩ | ⟨hop, ha, hb, -⟩⟩ := decode_ok h
  · cases hi
  · cases hi
  · exact ⟨hop, hrsv, ha, hb⟩

/-- The decoder drops no bit: RSV is zero, and each other field is fixed by the opcode or is an operand (R74, R76). -/
theorem encode_eq_of_decode {w : CmdWord} {i : Instr} (h : decode w = .ok i) : encode i = w ∧ i.WellFormed := by
  obtain ⟨hrsv, ⟨hop, hb, rfl⟩ | ⟨hop, rfl⟩ | ⟨hop, ha, hb, rfl⟩⟩ := decode_ok h
  · refine ⟨?_, trivial⟩
    rw [encode, ← hop, ← hb, CmdWord.ofFields_eq hrsv]
  · refine ⟨?_, sint32_fits _, sint32_fits _⟩
    rw [encode, ofInt_sint32, ofInt_sint32, ← hop, CmdWord.ofFields_eq hrsv]
  · refine ⟨?_, trivial⟩
    rw [encode, ← CmdWord.ofFields_eq hrsv, hop, ha, hb]

/-! ### Match and mask -/

/-- The fields B, A, RSV and OP side by side are the word (R71). -/
theorem append_fields (w : CmdWord) : w.b ++ w.a ++ w.rsv ++ w.op = w := by
  rw [CmdWord.b, CmdWord.a, CmdWord.rsv, CmdWord.op,
    BitVec.extractLsb'_append_extractLsb'_eq_extractLsb' (show 64 = 32 + 32 from rfl),
    BitVec.extractLsb'_append_extractLsb'_eq_extractLsb' (show 32 = 8 + 24 from rfl),
    BitVec.extractLsb'_append_extractLsb'_eq_extractLsb' (show 8 = 0 + 8 from rfl)]
  exact BitVec.extractLsb'_eq_self

/-- Two words with the same fields are the same. -/
theorem cmdWord_eq_iff (w v : CmdWord) : w = v ↔ w.op = v.op ∧ w.rsv = v.rsv ∧ w.a = v.a ∧ w.b = v.b := by
  refine ⟨fun h => h ▸ ⟨rfl, rfl, rfl, rfl⟩, fun ⟨hop, hrsv, ha, hb⟩ => ?_⟩
  rw [← append_fields w, ← append_fields v, hop, hrsv, ha, hb]

/-- A mask selects in each field on its own. -/
theorem and_eq_iff_fields (w mask v : CmdWord) :
    w &&& mask = v ↔
      w.op &&& mask.op = v.op ∧ w.rsv &&& mask.rsv = v.rsv ∧ w.a &&& mask.a = v.a ∧ w.b &&& mask.b = v.b := by
  rw [cmdWord_eq_iff]
  simp only [CmdWord.op, CmdWord.rsv, CmdWord.a, CmdWord.b, BitVec.extractLsb'_and]

/-- The mask of RESET leaves A open. -/
theorem resetMask_iff (w : CmdWord) :
    w &&& 0xFFFFFFFF00000000FFFFFFFF#96 = 0x000000000000000000000001#96 ↔ w.op = 0x01 ∧ w.rsv = 0 ∧ w.b = 0 := by
  rw [and_eq_iff_fields]
  change w.op &&& BitVec.allOnes 8 = 0x01 ∧ w.rsv &&& BitVec.allOnes 24 = 0 ∧ w.a &&& 0#32 = 0#32 ∧
    w.b &&& BitVec.allOnes 32 = 0 ↔ _
  simp only [BitVec.and_allOnes, BitVec.and_zero, true_and]

/-- The mask of UPDATE leaves A and B open. -/
theorem updateMask_iff (w : CmdWord) :
    w &&& 0x0000000000000000FFFFFFFF#96 = 0x000000000000000000000002#96 ↔ w.op = 0x02 ∧ w.rsv = 0 := by
  rw [and_eq_iff_fields]
  change w.op &&& BitVec.allOnes 8 = 0x02 ∧ w.rsv &&& BitVec.allOnes 24 = 0 ∧ w.a &&& 0#32 = 0#32 ∧
    w.b &&& 0#32 = 0#32 ↔ _
  simp only [BitVec.and_allOnes, BitVec.and_zero, and_true]

/-- The mask of FINISH leaves no field open. -/
theorem finishMask_iff (w : CmdWord) :
    w &&& 0xFFFFFFFFFFFFFFFFFFFFFFFF#96 = 0x000000000000000000000003#96 ↔
      w.op = 0x03 ∧ w.rsv = 0 ∧ w.a = 0 ∧ w.b = 0 := by
  rw [and_eq_iff_fields]
  change w.op &&& BitVec.allOnes 8 = 0x03 ∧ w.rsv &&& BitVec.allOnes 24 = 0 ∧ w.a &&& BitVec.allOnes 32 = 0 ∧
    w.b &&& BitVec.allOnes 32 = 0 ↔ _
  simp only [BitVec.and_allOnes]

/-! ### Reserved words -/

/-- The reserved words, class by class (R75). -/
theorem decode_error_iff (w : CmdWord) :
    (∃ e, decode w = .error e) ↔
      w.rsv ≠ 0 ∨ (w.op ≠ 0x01 ∧ w.op ≠ 0x02 ∧ w.op ≠ 0x03) ∨ (w.op = 0x01 ∧ w.b ≠ 0) ∨
        (w.op = 0x03 ∧ (w.a ≠ 0 ∨ w.b ≠ 0)) := by
  by_cases hrsv : w.rsv = 0
  swap
  · exact iff_of_true ⟨_, by rw [decode, if_pos hrsv]⟩ (.inl hrsv)
  rw [← CmdWord.ofFields_eq hrsv, decode_ofFields, CmdWord.ofFields_eq hrsv]
  by_cases h1 : w.op = 0x01#8
  · by_cases hb : w.b = 0#32 <;> simp [h1, hb, hrsv]
  by_cases h2 : w.op = 0x02#8
  · simp [h2, hrsv]
  by_cases h3 : w.op = 0x03#8
  · by_cases hab : w.a = 0#32 ∧ w.b = 0#32 <;> simp [h3, hab, hrsv, ← not_and_or]
  · simp [h1, h2, h3]

/-- The step that takes a command word refuses RESERVED_ENCODING when the word decodes to no command, and the machine it
leaves has only that action taken and the mark set (R75, R205). -/
theorem step_reservedEncoding_iff {s : State} {w : CmdWord} {rest : List HostEvent}
    (hhost : s.host = .command w :: rest) (after : State) :
    step s = .refused (.reservedEncoding after) ↔
      (∃ e, decode w = .error e) ∧ after = (s.setHost rest).markRefused := by
  rw [step_event hhost]
  constructor
  · intro h
    obtain ⟨_, e, hw, hd, hr⟩ | ⟨_, _, _, _, _, _, hr⟩ := hostEvent_refused_cases h
    · cases hw
      exact ⟨⟨e, hd⟩, Refusal.reservedEncoding.inj hr⟩
    · cases hr
  · rintro ⟨⟨e, hd⟩, rfl⟩
    exact issue_reserved hd _

/-! ### The pseudo-commands -/

/-- UPDATE of the whole buffer is accepted wherever an UPDATE may run (R82, R111). -/
theorem exec_updateAll {s : State} (hmay : s.MayUpdate) :
    exec (.update 0 s.dbuf.len) s =
      .next ((s.setHasher (s.hasher.absorb (s.dbuf.slice 0 s.dbuf.len))).respondStatus statusOk) :=
  exec_update_accepted ((updateForbidden_eq_false_iff s).2 hmay) ((outOfRange_eq_false_iff _ _ _).2 (by omega))

theorem init_validBytes (x : Word) (p : Pend) : (HasherState.init x p).validBytes = [] := rfl

/-- Bits [31:0] of a 64-bit count are the count mod 2^32 (R144). -/
theorem lowWord_ofNat (n : Nat) : (BitVec.ofNat 64 n).extractLsb' 0 32 = BitVec.ofNat 32 n := by
  rw [← BitVec.setWidth_eq_extractLsb' (by decide), BitVec.setWidth_ofNat_of_le (by decide)]

/-- The block's digest after INIT and one UPDATE is the digest of the message (R121, R141). -/
theorem finalHash_absorb_init (x : Word) (p : Pend) (d : List Byte) :
    ((HasherState.init x p).absorb d).finalHash = messageHash x d := by
  have htotal : ((HasherState.init x p).absorb d).totalLen = BitVec.ofNat 64 d.length := by
    rw [absorb_totalLen, HasherState.init_totalLen, zero_add]
  have hlong : (16 : Len) ≤ BitVec.ofNat 64 d.length ↔ 16 ≤ d.length % 2 ^ 64 := by
    rw [BitVec.le_def, BitVec.toNat_ofNat]; rfl
  rw [finalHash_eq, HasherState.startHash, HasherState.lengthTerm, absorb_validBytes, absorb_lanes, absorb_seed, htotal,
    init_validBytes, List.nil_append, HasherState.init_lanes, HasherState.init_seed, lowWord_ofNat, messageHash]
  simp only [hlong]

/-! ### The obligations of 30_encoding.md -/

/-- Settles O7, from the decoder's reading of the fields the encoder wrote, and the wire that carries the whole word. -/
theorem decodeOfEncode : Obligations.DecodeOfEncode := by
  intro i hi
  have hword := decode_encode_of_wellFormed hi
  exact ⟨hword, (decodeBytes_toWire (encode i)).trans hword⟩

/-- Settles O8, one command at a time. -/
theorem encodeOfDecode : Obligations.EncodeOfDecode := fun _ _ => encode_eq_of_decode

/-- Settles O9: mask and match, and the decoder, ask the same of the fields. -/
theorem opcodeTableMatchesDecode : Obligations.OpcodeTableMatchesDecode := fun w =>
  ⟨(resetMask_iff w).trans (decode_reset_iff w).symm, (updateMask_iff w).trans (decode_update_iff w).symm,
    (finishMask_iff w).trans (decode_finish_iff w).symm⟩

/-- Settles O10: the bytes are read off the word, and reading them back gives the word. -/
theorem wireIsTwelveBytesLittleEndian : Obligations.WireIsTwelveBytesLittleEndian := by
  refine ⟨fun w => ⟨w.toWire_length, fun k hk => ?_, decodeBytes_toWire w⟩, fun bs hbs => ?_⟩
  · rw [CmdWord.toWire, List.getD_eq_getElem _ _ (by simpa using hk), List.getElem_map, List.getElem_range]
  · rw [decodeBytes, if_neg hbs]

/-- Settles O16: a step refuses RESERVED_ENCODING where the decoder finds no command. -/
theorem reservedWordsAreRefused : Obligations.ReservedWordsAreRefused := by
  intro s w rest hhost
  refine ⟨(decode_error_iff w).symm.trans ?_, fun after h => ((step_reservedEncoding_iff hhost after).1 h).2⟩
  simp only [step_reservedEncoding_iff hhost, exists_and_left, exists_eq, and_true]

/-- Settles O39: RESET and UPDATE.ALL leave the stream of the buffer in the hasher, and FINISH answers its digest. -/
theorem hashPseudoCommandReturnsDigest : Obligations.HashPseudoCommandReturnsDigest := by
  intro s o
  have hreset := exec_reset (o.getD 0) s
  have hupdate := exec_updateAll
    (s := (s.setHasher (HasherState.init (o.getD 0) s.hasher.pend)).respondStatus statusOk) (.inl rfl)
  refine ⟨_, ⟨statusOk, freeDigest s.freeCount⟩, ⟨statusOk, freeDigest (s.freeCount + 4)⟩,
    (execAll_cons_of_next hreset _).trans ((execAll_cons_of_next hupdate _).trans
      (execAll_cons_of_next (exec_finish _) [])), ?_⟩
  simp [finalHash_absorb_init, statusOk]

/-- Settles O6: the fields of each word are read off it. -/
theorem exampleWordsDecode : Obligations.ExampleWordsDecode := by
  unfold Obligations.ExampleWordsDecode
  decide

/-- Settles O21: RESET loads the INIT configuration that power-on left, and only stale bytes of Pend could differ. -/
theorem constructAfterPowerOnChangesNothing : Obligations.ConstructAfterPowerOnChangesNothing := fun s _ =>
  ⟨_, execAll_cons_of_next (exec_reset s.params.resetSeed (powerOn s)) [], init_obsEq _ _ _⟩

/-- Settles O30: the range 0 .. buf_len fits the buffer. -/
theorem updateAllIsAlwaysInRange : Obligations.UpdateAllIsAlwaysInRange := fun _ hmay =>
  ⟨_, _, execAll_cons_of_next (exec_updateAll hmay) [], rfl⟩

end Sys2Proof.Machine

/-! The statements about 40_reset_cmd.md: the configuration RESET loads (R101, R102), and the block it leaves, which
answers as one just out of power-on (R104). -/

namespace Sys2Proof.Machine

/-! ### RESET and power-on -/

/-- The lanes of a seed, with the constants of R9 written out (R101). -/
theorem initialLanes_eq (x : Word) :
    initialLanes x = {
      v1 := x + 2654435761#32 + 2246822519#32
      v2 := x + 2246822519#32
      v3 := x
      v4 := x - 2654435761#32 } := by
  rw [initialLanes, prime1, prime2, add_zero]

/-- RESET loads the configuration that a power-on loads from RESET_SEED: only bytes of Pend can differ, and with no byte
pending all of them are stale (R35, R104). -/
theorem reset_alike_powerOn {s u : State} {x : Word} (hparams : u.params = { s.params with resetSeed := x })
    (hdbuf : u.dbuf = s.dbuf) (b : Byte) :
    ((s.setHasher (HasherState.init x s.hasher.pend)).respondStatus b).Alike (powerOn u) where
  hasher := by
    rw [State.respondStatus_hasher, State.setHasher_hasher, powerOn_hasher, hparams]
    exact init_obsEq _ _ _
  dbuf := hdbuf.symm
  maxBufLen := (congrArg Params.maxBufLen hparams).symm
  postFinishUpdate := (congrArg Params.postFinishUpdate hparams).symm

/-! ### The obligations of 40_reset_cmd.md -/

/-- Settles O20, by the simulation of O42: the block after RESET and the block after power-on are alike, and RESET_SEED,
in which their parameters may differ, is read by power-on alone. -/
theorem resetIsIndistinguishableFromPowerOn : Obligations.ResetIsIndistinguishableFromPowerOn := by
  intro s u seed es hparams hdbuf hes
  have hreset := exec_reset seed s
  obtain ⟨-, hmark, -⟩ := exec_frame hreset
  have halike := reset_alike_powerOn hparams hdbuf statusOk
  exact ⟨_, hreset, seenRun_eq_of_alike es halike fun hmem => absurd rfl (hes _ hmem), hmark⟩

/-- Settles O19: RESET has one outcome, the INIT configuration of the seed and a response OK over free digest bytes. -/
theorem resetLoadsInitConfiguration : Obligations.ResetLoadsInitConfiguration := by
  intro seed s
  refine ⟨freeDigest s.freeCount, s.freeCount + 4, ?_⟩
  rw [exec_reset, HasherState.init, initialLanes_eq]
  rfl

end Sys2Proof.Machine

/-! The statements about 41_update.md: the checks and the steps of UPDATE (R111 to R118), the block-mix step (R116), and
chunking invariance (R121). -/

namespace Sys2Proof.Machine

/-! ### The block-mix step -/

/-- The round with the constants of R9 written out (R116). -/
theorem laneRound_eq (acc w : Word) :
    laneRound acc w = (acc + w * 2246822519#32).rotateLeft 13 * 2654435761#32 := by
  rw [laneRound, rotl32_eq_rotateLeft _ (by decide), prime1, prime2]

/-! ### One accepted UPDATE -/

/-- An UPDATE that passes both checks of R111 takes in its range of the buffer and answers OK (R112). -/
theorem exec_update_of_fits {s : State} {offset count : Int} (hmay : s.MayUpdate) (hfits : s.RangeFits offset count) :
    exec (.update offset count) s = .next
      ((s.setHasher (s.hasher.absorb (s.dbuf.slice offset.toNat count.toNat))).respondStatus statusOk) :=
  exec_update_accepted ((updateForbidden_eq_false_iff s).2 hmay) ((outOfRange_eq_false_iff _ _ _).2 hfits)

/-- What taking in data writes: the lanes, the count, Pend and pending_len (R112, R118). -/
theorem absorb_eq (h : HasherState) (d : List Byte) :
    h.absorb d = { h with
      lanes := mixStream h.lanes (h.validBytes ++ d)
      totalLen := h.totalLen + BitVec.ofNat 64 d.length
      pend := (h.absorb d).pend
      pendingLen := (h.absorb d).pendingLen } := by
  rw [← absorb_lanes, ← absorb_totalLen, ← absorb_seed h d, ← absorb_fin h d]

theorem absorb_lanes_short {h : HasherState} {d : List Byte} (hd : h.pendingLen.val + d.length < 16) :
    (h.absorb d).lanes = h.lanes := by
  rw [absorb_lanes, mixStream_short _ _ (by rwa [h.validBytes_append_length])]

/-- Data that make the pending bytes one group mix that group and no other (R114). -/
theorem absorb_lanes_of_group {h : HasherState} {d : List Byte} (hd : h.pendingLen.val + d.length = 16) :
    (h.absorb d).lanes = blockMix h.lanes (h.validBytes ++ d) := by
  have hlen : (h.validBytes ++ d).length = 16 := by rw [h.validBytes_append_length, hd]
  rw [absorb_lanes, mixStream_step _ _ hlen.ge, List.take_of_length_le hlen.le, List.drop_of_length_le hlen.le,
    mixStream_short _ _ (by decide)]

/-- Data that fill Pend to its end stay there: the stash after them is empty (R114, R117). -/
theorem absorb_pendBytes_of_group {h : HasherState} {d : List Byte} (hp : 0 < h.pendingLen.val)
    (hd : h.pendingLen.val + d.length = 16) : pendBytes (h.absorb d).pend = h.validBytes ++ d := by
  have hlen : (h.validBytes ++ d).length = 16 := by rw [h.validBytes_append_length, hd]
  have hrest : streamRest (h.validBytes ++ d) = [] :=
    List.eq_nil_of_length_eq_zero (by rw [streamRest_length, hlen])
  obtain ⟨-, hmix⟩ := topUp_mix (h.addLength d.length) d hd.ge
  rw [absorb_of_long (by omega), drain_eq, HasherState.stash_pend, hmix, HasherState.addLength_validBytes, hrest,
    pendStore_nil, bulk_pend, topUp_of_pending (h := h.addLength d.length) hp, HasherState.setLanes_pend,
    HasherState.setPend_pend, topUp_pendBytes (h.addLength d.length) d hd.ge, HasherState.addLength_validBytes,
    List.take_of_length_le hlen.le]

/-- Byte i of the data of an UPDATE (R58). -/
theorem Dbuf.slice_getD (b : Dbuf) (a : Nat) {n i : Nat} (hi : i < n) :
    (b.slice a n).getD i 0 = b.mem.read (a + i) := by
  rw [List.getD_eq_getElem _ _ (by rwa [slice_length]), slice_getElem]

theorem Dbuf.slice_zero (b : Dbuf) (a : Nat) : b.slice a 0 = [] := rfl

theorem Dbuf.slice_one (b : Dbuf) (a : Nat) : b.slice a 1 = [b.mem.read a] := rfl

/-- The length of an accepted UPDATE's data, as total_len counts it (R112). -/
theorem Dbuf.ofNat_slice_length (b : Dbuf) (a : Nat) {count : Int} (hcount : 0 ≤ count) :
    BitVec.ofNat 64 (b.slice a count.toNat).length = BitVec.ofInt 64 count := by
  rw [slice_length, ← BitVec.ofInt_natCast, Int.toNat_of_nonneg hcount]

/-! ### Data in pieces -/

theorem obsEq_refl (h : HasherState) : h.ObsEq h := ⟨rfl, rfl, rfl, rfl, rfl, rfl⟩

theorem obsEq_symm {h k : HasherState} (hk : h.ObsEq k) : k.ObsEq h := by
  obtain ⟨hseed, hlanes, htotal, hpending, hfin, hvalid⟩ := hk
  exact ⟨hseed.symm, hlanes.symm, htotal.symm, hpending.symm, hfin.symm, hvalid.symm⟩

theorem obsEq_trans {h k m : HasherState} (hk : h.ObsEq k) (hm : k.ObsEq m) : h.ObsEq m := by
  obtain ⟨hseed, hlanes, htotal, hpending, hfin, hvalid⟩ := hk
  obtain ⟨hseed', hlanes', htotal', hpending', hfin', hvalid'⟩ := hm
  exact ⟨hseed.trans hseed', hlanes.trans hlanes', htotal.trans htotal', hpending.trans hpending', hfin.trans hfin',
    hvalid.trans hvalid'⟩

/-- Two pieces leave what the whole leaves: the unmixed rest of the first is the start of the second's stream (R121). -/
theorem absorb_absorb_obsEq (h : HasherState) (d e : List Byte) :
    ((h.absorb d).absorb e).ObsEq (h.absorb (d ++ e)) := by
  refine ⟨?_, ?_, ?_, Fin.ext ?_, ?_, ?_⟩
  · rw [absorb_seed, absorb_seed, absorb_seed]
  · rw [absorb_lanes, absorb_lanes, absorb_validBytes, absorb_lanes, ← mixStream_append, List.append_assoc]
  · rw [absorb_totalLen, absorb_totalLen, absorb_totalLen, List.length_append, BitVec.ofNat_add, BitVec.add_assoc]
  · rw [absorb_pendingLen, absorb_pendingLen, absorb_pendingLen, List.length_append]
    omega
  · rw [absorb_fin, absorb_fin, absorb_fin]
  · rw [absorb_validBytes, absorb_validBytes, absorb_validBytes, ← streamRest_append, List.append_assoc]

/-- A run of `k` commands from `s` to `t` in which every command answered OK, and which leaves `h` in the hasher up to
stale bytes and the buffer and the parameters as they were. -/
structure State.AnsweredOk (s : State) (k : Nat) (h : HasherState) (t : State) : Prop where
  hasher : t.hasher.ObsEq h
  dbuf : t.dbuf = s.dbuf
  params : t.params = s.params
  responses : ∃ rs : List Response,
    t.responses = s.responses ++ rs ∧ rs.length = k ∧ ∀ r ∈ rs, r.status = statusOk

namespace State.AnsweredOk

variable {s t : State} {k : Nat} {h : HasherState}

theorem refl (s : State) : s.AnsweredOk 0 s.hasher s :=
  ⟨obsEq_refl _, rfl, rfl, [], (List.append_nil _).symm, rfl, nofun⟩

/-- One more command before the run: it writes the hasher and answers OK. -/
theorem cons {x : HasherState} (hrun : ((s.setHasher x).respondStatus statusOk).AnsweredOk k h t) :
    s.AnsweredOk (k + 1) h t := by
  obtain ⟨hhasher, hdbuf, hparams, rs, hresponses, hlen, hok⟩ := hrun
  refine ⟨hhasher, hdbuf, hparams, ⟨statusOk, freeDigest s.freeCount⟩ :: rs, ?_, congrArg (· + 1) hlen,
    List.forall_mem_cons.2 ⟨rfl, hok⟩⟩
  rw [hresponses, State.respondStatus_responses, List.append_assoc]
  rfl

theorem congr_hasher {x : HasherState} (hrun : s.AnsweredOk k h t) (hx : h.ObsEq x) : s.AnsweredOk k x t :=
  { hrun with hasher := obsEq_trans hrun.hasher hx }

end State.AnsweredOk

/-- UPDATEs of consecutive pieces leave what taking in the whole range leaves (R121). -/
theorem execAll_pieces {s : State} {off : Nat} {ns : List Nat} (hmay : s.MayUpdate)
    (hfits : off + ns.sum ≤ s.dbuf.len) :
    ∃ t, execAll (pieces off ns) s = .next t ∧
      s.AnsweredOk ns.length (s.hasher.absorb (s.dbuf.slice off ns.sum)) t := by
  induction ns generalizing s off with
  | nil =>
    rw [List.sum_nil, Dbuf.slice_zero, absorb_nil]
    exact ⟨s, rfl, .refl s⟩
  | cons n ns ih =>
    rw [List.sum_cons] at hfits ⊢
    have hexec : exec (.update off n) s = _ := exec_update_of_fits hmay (by omega)
    rw [Int.toNat_natCast, Int.toNat_natCast] at hexec
    obtain ⟨t, hrun, hok⟩ := ih
      (s := (s.setHasher (s.hasher.absorb (s.dbuf.slice off n))).respondStatus statusOk) (off := off + n)
      (hmay.imp_left (absorb_fin _ _).trans) (by rw [Nat.add_assoc]; exact hfits)
    refine ⟨t, (execAll_cons_of_next hexec _).trans hrun, hok.cons.congr_hasher ?_⟩
    rw [← Dbuf.slice_append]
    exact absorb_absorb_obsEq _ _ _

/-- RESET and UPDATEs of consecutive pieces leave the INIT configuration with the whole range taken in (R101, R121). -/
theorem execAll_reset_pieces (s : State) (x : Word) {off : Nat} {ns : List Nat} (hfits : off + ns.sum ≤ s.dbuf.len) :
    ∃ t, execAll (.reset x :: pieces off ns) s = .next t ∧
      s.AnsweredOk (ns.length + 1) ((HasherState.init x s.hasher.pend).absorb (s.dbuf.slice off ns.sum)) t := by
  obtain ⟨t, hrun, hok⟩ := execAll_pieces
    (s := (s.setHasher (HasherState.init x s.hasher.pend)).respondStatus statusOk) (.inl rfl) hfits
  exact ⟨t, (execAll_cons_of_next (exec_reset x s) _).trans hrun, hok.cons⟩

theorem execAll_append_of_next {is : List Instr} {s t : State} (h : execAll is s = .next t) (js : List Instr) :
    execAll (is ++ js) s = execAll js t := by
  induction is generalizing s with
  | nil => rw [Host.Outcome.next.inj h, List.nil_append]
  | cons i is ih =>
    rw [List.cons_append]
    cases hi : exec i s with
    | next u =>
      rw [execAll_cons_of_next hi] at h ⊢
      exact ih h
    | fault f => exact absurd hi (exec_ne_fault _ _ _)
    | refused r =>
      rw [execAll_cons_of_refused hi] at h
      cases h

/-! ### The obligations of 41_update.md -/

/-- Settles O31, by induction on the pieces. -/
theorem absorbingPiecesEqualsAbsorbingWhole : Obligations.AbsorbingPiecesEqualsAbsorbingWhole := by
  intro h ds
  induction ds generalizing h with
  | nil =>
    rw [List.flatten_nil, absorb_nil]
    exact obsEq_refl h
  | cons d ds ih => exact obsEq_trans (ih (h.absorb d)) (absorb_absorb_obsEq h d ds.flatten)

/-- Settles O32: both runs leave the INIT configuration with the range taken in, and the host cannot tell apart machines
that differ in stale bytes. -/
theorem chunkingInvariance : Obligations.ChunkingInvariance := by
  intro s seed off ns es hfits
  obtain ⟨t, hrun, ht⟩ := execAll_reset_pieces s seed hfits
  obtain ⟨u, hrun', hu⟩ := execAll_reset_pieces s seed (off := off) (ns := [ns.sum]) (by rwa [List.sum_singleton])
  rw [List.sum_singleton] at hu
  have hobs : t.hasher.ObsEq u.hasher := obsEq_trans ht.hasher (obsEq_symm hu.hasher)
  exact ⟨t, u, hrun, hrun', hobs,
    staleBytesAreNeverSeen t u es hobs (ht.dbuf.trans hu.dbuf.symm) (ht.params.trans hu.params.symm)⟩

/-- Settles O33: the four facts of the data taken in, with no byte counted or pending before them. -/
theorem stateFollowsTheStream : Obligations.StateFollowsTheStream := by
  intro s seed off ns hfits
  obtain ⟨t, hrun, ht⟩ := execAll_reset_pieces s seed hfits
  obtain ⟨hseed, hlanes, htotal, hpending, hfin, hvalid⟩ := ht.hasher
  refine ⟨t, hrun, ?_, ?_, ?_, ?_, ?_, ?_⟩
  · rw [htotal, absorb_totalLen, Dbuf.slice_length, HasherState.init_totalLen, zero_add]
  · rw [hpending, absorb_pendingLen, Dbuf.slice_length, HasherState.init_pendingLen, Fin.val_zero, Nat.zero_add]
  · rw [hvalid, absorb_validBytes, init_validBytes, List.nil_append]
  · rw [hlanes, absorb_lanes, init_validBytes, List.nil_append, HasherState.init_lanes]
  · rw [hseed, absorb_seed, HasherState.init_seed]
  · rw [hfin, absorb_fin, HasherState.init_fin]

/-- Settles O38: FINISH answers from the hasher of O33, in which the whole message was taken in. -/
theorem digestOfMessageInPieces : Obligations.DigestOfMessageInPieces := by
  intro s seed off ns hfits
  obtain ⟨t, hrun, ht⟩ := execAll_reset_pieces s seed hfits
  obtain ⟨rs, hresponses, hlen, hok⟩ := ht.responses
  have hfinish := execAll_cons_of_next (exec_finish t) []
  refine ⟨_, rs, (execAll_append_of_next hrun [.finish]).trans hfinish, ?_, hlen, hok⟩
  rw [State.respondDigest_responses, State.setHasher_responses, hresponses, finalHash_of_obsEq ht.hasher,
    finalHash_absorb_init]
  rfl

/-- Settles O25: every field of the hasher after an accepted UPDATE, from the stream of its pending bytes and data. -/
theorem updateMixesCompleteGroups : Obligations.UpdateMixesCompleteGroups := by
  intro s offset count hmay hfits
  have hexec := exec_update_of_fits hmay hfits
  obtain ⟨-, hcount, -⟩ := hfits
  refine ⟨_, _, freeDigest s.freeCount, s.freeCount + 4, hexec.trans ?_, ?_, absorb_validBytes _ _⟩
  · rw [absorb_eq, Dbuf.ofNat_slice_length _ _ hcount]
    rfl
  · rw [absorb_pendingLen, Dbuf.slice_length]

/-- Settles O24: no group is complete, so no lane changes and Pend takes the bytes in at its tail. -/
theorem shortUpdateAccumulates : Obligations.ShortUpdateAccumulates := by
  intro s offset count hmay hfits hshort
  have hexec := exec_update_of_fits hmay hfits
  obtain ⟨-, hcount, -⟩ := hfits
  have hlen := s.dbuf.slice_length offset.toNat count.toNat
  have hshort' : s.hasher.pendingLen.val + (s.dbuf.slice offset.toNat count.toNat).length < 16 := by omega
  refine ⟨_, (s.hasher.absorb (s.dbuf.slice offset.toNat count.toNat)).pendingLen, freeDigest s.freeCount,
    s.freeCount + 4, hexec.trans ?_, ?_, fun i _ => (absorb_pendByte_short _ _ hshort' i).trans ?_⟩
  · rw [absorb_eq, ← absorb_lanes, absorb_lanes_short hshort', Dbuf.ofNat_slice_length _ _ hcount]
    rfl
  · rw [absorb_pendingLen, Nat.mod_eq_of_lt hshort', hlen]
    omega
  · rw [hlen]
    by_cases hin : s.hasher.pendingLen.val ≤ i ∧ i < s.hasher.pendingLen.val + count.toNat
    · rw [if_pos hin, if_pos (by omega), Dbuf.slice_getD _ _ (by omega)]
    · rw [if_neg hin, if_neg (by omega)]
      rfl

/-- Settles O26: each byte of the stash and of the top-up is a byte of the range. -/
theorem longUpdateWritesPend : Obligations.LongUpdateWritesPend := by
  intro s offset count hmay hfits hlong
  have hlen := s.dbuf.slice_length offset.toNat count.toNat
  refine ⟨_, exec_update_of_fits hmay hfits, fun i hi =>
    (absorb_pendByte_long s.hasher _ (by rwa [hlen]) i hi).trans ?_⟩
  rw [hlen]
  by_cases hstash : i < (s.hasher.pendingLen.val + count.toNat) % 16
  · rw [if_pos hstash, if_pos hstash, Dbuf.slice_getD _ _ (by omega)]
  rw [if_neg hstash, if_neg hstash]
  by_cases htop : 0 < s.hasher.pendingLen.val ∧ s.hasher.pendingLen.val ≤ i
  · rw [if_pos htop, if_pos htop, Dbuf.slice_getD _ _ (by omega)]
  · rw [if_neg htop, if_neg htop]
    rfl

/-- Settles O28: fifteen pending bytes and one more are one group. -/
theorem sixteenthByteDrainsPend : Obligations.SixteenthByteDrainsPend := by
  intro s offset hmay hfits hfifteen
  have hvalid : s.hasher.validBytes = s.hasher.pend.toList.take 15 := by
    rw [HasherState.validBytes, hfifteen]
    rfl
  have hgroup : s.hasher.pendingLen.val + [s.dbuf.mem.read offset.toNat].length = 16 := by rw [hfifteen]; rfl
  refine ⟨_, exec_update_of_fits hmay hfits, ?_⟩
  rw [State.respondStatus_hasher, State.setHasher_hasher, Int.toNat_one, Dbuf.slice_one, ← hvalid]
  refine ⟨absorb_lanes_of_group hgroup, Fin.ext ?_, absorb_pendBytes_of_group (by rw [hfifteen]; decide) hgroup,
    absorb_totalLen _ _⟩
  rw [absorb_pendingLen, hgroup]
  rfl

/-- Settles O4: each lane's word is read off the group. -/
theorem blockMixRoundsEachLane : Obligations.BlockMixRoundsEachLane := by
  unfold Obligations.BlockMixRoundsEachLane
  intros
  rw [blockMix, laneRound_eq, laneRound_eq, laneRound_eq, laneRound_eq]
  rfl

/-- Settles O22: check 1 of R111 comes first and reads no operand. -/
theorem updateAfterFinishIsRefused : Obligations.UpdateAfterFinishIsRefused := fun s offset count hfin hrefuse =>
  exec_update_forbidden ((updateForbidden_iff s).2 ⟨hfin, hrefuse⟩) offset count

/-- Settles O27: the range is in the buffer and holds no byte. -/
theorem emptyUpdateChangesNothing : Obligations.EmptyUpdateChangesNothing := by
  intro s offset hmay hlow hhigh
  refine ⟨freeDigest s.freeCount, s.freeCount + 4, ?_⟩
  rw [exec_update_of_fits hmay (by omega), Int.toNat_zero, Dbuf.slice_zero, absorb_nil]
  rfl

end Sys2Proof.Machine

/-! The statements about 42_finish.md: the avalanche (R147, R153), the tail fold (R145, R146), and what FINISH answers
and leaves (R141 to R151). -/

namespace Sys2Proof.Machine

/-! ### The avalanche -/

/-- A bit is combined with the bit k places above it (R147). -/
theorem xorShift_getLsbD (k : Nat) (h : Word) (i : Nat) :
    (xorShift k h).getLsbD i = (h.getLsbD i ^^ h.getLsbD (k + i)) := by
  rw [xorShift, BitVec.getLsbD_xor, BitVec.getLsbD_ushiftRight]

/-- Words with the same xor-shift agree on their top n bits: the bits are recovered from the top down (R153). -/
theorem getLsbD_eq_of_xorShift_eq {k : Nat} (hk : 1 ≤ k) {x y : Word} (hxy : xorShift k x = xorShift k y) (n : Nat) :
    ∀ i, 32 ≤ i + n → x.getLsbD i = y.getLsbD i := by
  induction n with
  | zero => exact fun i hi => (BitVec.getLsbD_of_ge x i hi).trans (BitVec.getLsbD_of_ge y i hi).symm
  | succ n ih =>
    intro i hi
    have habove : x.getLsbD (k + i) = y.getLsbD (k + i) := ih (k + i) (by omega)
    have hbit : (xorShift k x).getLsbD i = (xorShift k y).getLsbD i := by rw [hxy]
    rw [xorShift_getLsbD, xorShift_getLsbD, habove] at hbit
    exact Bool.xor_left_inj.1 hbit

theorem xorShift_injective {k : Nat} (hk : 1 ≤ k) : Function.Injective (xorShift k) := fun _ _ hxy =>
  BitVec.eq_of_getLsbD_eq fun i _ => getLsbD_eq_of_xorShift_eq hk hxy 32 i (by omega)

theorem xorShift_bijective {k : Nat} (hk : 1 ≤ k) : Function.Bijective (xorShift k) :=
  have : Finite Word := .of_equiv _ BitVec.equivFin.symm.toEquiv
  Finite.injective_iff_bijective.1 (xorShift_injective hk)

/-- PRIME2 is odd: 3066638151 inverts it mod 2^32 (R153). -/
theorem mul_prime2_bijective : Function.Bijective fun h : Word => h * prime2 :=
  IsUnit.isUnit_iff_mulRight_bijective.1 (.of_mul_eq_one 3066638151#32 (by decide))

/-- PRIME3 is odd: 2828982549 inverts it mod 2^32 (R153). -/
theorem mul_prime3_bijective : Function.Bijective fun h : Word => h * prime3 :=
  IsUnit.isUnit_iff_mulRight_bijective.1 (.of_mul_eq_one 2828982549#32 (by decide))

/-- The avalanche is the composition of its five operations (R147). -/
theorem avalanche_bijective : Function.Bijective avalanche :=
  (xorShift_bijective (k := 16) (by decide)).comp <| mul_prime3_bijective.comp <|
    (xorShift_bijective (k := 13) (by decide)).comp <| mul_prime2_bijective.comp <|
      xorShift_bijective (k := 15) (by decide)

/-- The avalanche with the constants of R9 written out (R147). -/
theorem avalanche_eq (h : Word) :
    avalanche h = xorShift 16 (xorShift 13 (xorShift 15 h * 2246822519#32) * 3266489917#32) := by
  rw [avalanche, prime2, prime3]

/-- Reading the digest's bytes as a little-endian word gives the word back (R54). -/
theorem le32_ofWord (h : Word) :
    le32 (Digest.ofWord h).d0 (Digest.ofWord h).d1 (Digest.ofWord h).d2 (Digest.ofWord h).d3 = h := by
  apply BitVec.eq_of_toNat_eq
  rw [le32_toNat]
  simp only [Digest.ofWord, BitVec.extractLsb'_toNat, Nat.shiftRight_eq_div_pow]
  omega

theorem ofWord_injective : Function.Injective Digest.ofWord := fun x y hxy => by
  rw [← le32_ofWord x, ← le32_ofWord y, hxy]

/-! ### The start of the digest and the tail fold -/

/-- The merge with its rotations written out (R143). -/
theorem mergeLanes_eq (l : Lanes) :
    mergeLanes l = l.v1.rotateLeft 1 + l.v2.rotateLeft 7 + l.v3.rotateLeft 12 + l.v4.rotateLeft 18 := by
  rw [mergeLanes, rotl32_eq_rotateLeft _ (by decide), rotl32_eq_rotateLeft _ (by decide),
    rotl32_eq_rotateLeft _ (by decide), rotl32_eq_rotateLeft _ (by decide)]

/-- The branch of step 1, on the number of bytes counted (R142). -/
theorem startHash_eq (h : HasherState) :
    h.startHash = if 16 ≤ h.totalLen.toNat then mergeLanes h.lanes else h.seed + prime5 := rfl

theorem startHash_of_short {h : HasherState} (hlen : h.totalLen.toNat < 16) : h.startHash = h.seed + prime5 := by
  rw [startHash_eq, if_neg (Nat.not_le.2 hlen)]

theorem startHash_of_long {h : HasherState} (hlen : 16 ≤ h.totalLen.toNat) : h.startHash = mergeLanes h.lanes := by
  rw [startHash_eq, if_pos hlen]

theorem lengthTerm_eq (h : HasherState) : h.lengthTerm = h.totalLen.setWidth 32 :=
  (BitVec.setWidth_eq_extractLsb' (by decide)).symm

/-- A word of the tail, with the constants of R9 written out (R145). -/
theorem foldWord_eq (h w : Word) : foldWord h w = (h + w * 3266489917#32).rotateLeft 17 * 668265263#32 := by
  rw [foldWord, rotl32_eq_rotateLeft _ (by decide), prime3, prime4]

/-- A byte of the tail, with the constants of R9 written out (R146). -/
theorem foldByte_eq (h : Word) (b : Byte) :
    foldByte h b = (h + b.setWidth 32 * 374761393#32).rotateLeft 11 * 2654435761#32 := by
  rw [foldByte, rotl32_eq_rotateLeft _ (by decide), zext32, prime5, prime1]

/-- With fewer than four bytes left the tail takes the next one alone (R146). -/
theorem foldRest_byte (h : Word) (b : Byte) {bs : List Byte} (hl : bs.length < 3) :
    foldRest h (b :: bs) = foldRest (foldByte h b) bs := by
  rw [foldRest_short h (b :: bs) (by rw [List.length_cons]; omega), foldRest_short _ bs (by omega), List.foldl_cons]

/-- The digest depends on the seed, the lanes and bits 63:32 of the length through step 1 alone (R142, R144). -/
theorem finalHash_congr_start {h k : HasherState} (hstart : h.startHash = k.startHash)
    (hlow : h.totalLen.setWidth 32 = k.totalLen.setWidth 32) (hvalid : h.validBytes = k.validBytes) :
    h.finalHash = k.finalHash := by
  rw [finalHash_eq, finalHash_eq, lengthTerm_eq, lengthTerm_eq, hstart, hlow, hvalid]

/-- fin does not enter the digest (R151). -/
theorem setFin_finalHash (h : HasherState) : h.setFin.finalHash = h.finalHash := finalHash_congr rfl rfl rfl rfl

/-! ### The obligations of 42_finish.md -/

/-- Settles O5: a xor-shift loses no bit, PRIME2 and PRIME3 have inverses, and the digest holds the whole word. -/
theorem avalancheIsBijective : Obligations.AvalancheIsBijective :=
  ⟨fun _ => xorShift_bijective, mul_prime2_bijective, mul_prime3_bijective, avalanche_bijective, by decide,
    fun _ _ hne => (ofWord_injective.comp avalanche_bijective.injective).ne hne⟩

/-- Settles O34, from the equation of each step of the digest. -/
theorem finishReturnsTheDigest : Obligations.FinishReturnsTheDigest := by
  intro s
  rw [exec_finish, finalHash_eq, startHash_eq, lengthTerm_eq, mergeLanes_eq, avalanche_eq]
  rfl

/-- Settles O35, one branch of the fold at a time. -/
theorem tailStepsFoldWordsAndBytes : Obligations.TailStepsFoldWordsAndBytes :=
  ⟨fun h b0 b1 b2 b3 rest => by rw [foldRest_word, foldWord_eq],
    fun h b rest hl => by rw [foldRest_byte h b hl, foldByte_eq], fun _ => rfl⟩

/-- Settles O36: the first FINISH changed fin alone, which the digest does not see. -/
theorem finishRepeatsItsDigest : Obligations.FinishRepeatsItsDigest := by
  intro s
  refine ⟨_, _, ⟨statusOk, Digest.ofWord s.hasher.finalHash⟩, exec_finish s, exec_finish _, rfl, ?_, rfl⟩
  rw [State.respondDigest_responses, State.setHasher_responses, State.respondDigest_hasher, State.setHasher_hasher,
    setFin_finalHash]

/-- Settles O37: each branch of step 1 reads one side. -/
theorem digestIgnoresUnusedInputs : Obligations.DigestIgnoresUnusedInputs := by
  refine ⟨fun h l hlen => ?_, fun h x n hlen hn hlow => ?_⟩
  · exact finalHash_congr_start ((startHash_of_short (h := { h with lanes := l }) hlen).trans
      (startHash_of_short hlen).symm) rfl rfl
  · exact finalHash_congr_start ((startHash_of_long hn).trans (startHash_of_long hlen).symm) hlow rfl

end Sys2Proof.Machine

/-! The statements about 60_exceptions.md: InvalidArgument (R201, R203), the mark of a completed run (R205, R243) and
the idle block (R215). -/

namespace Sys2Proof.Machine

/-! ### Runs -/

/-- What every step keeps, a completed run keeps. -/
theorem run_keeps {P : State → Prop} (hstep : ∀ {s t : State}, P s → step s = .next t → P t) (n : Nat)
    {s t : State} (hs : P s) (h : Host.Core.run Sys2Proof.core n s = .next t) : P t := by
  induction n generalizing s with
  | zero => rwa [← Host.Outcome.next.inj ((run_zero s).symm.trans h)]
  | succ n ih =>
    cases hfirst : step s with
    | next u => exact ih (hstep hs hfirst) ((run_succ_of_next hfirst n).symm.trans h)
    | fault f => cases (run_succ_of_fault hfirst n).symm.trans h
    | refused r => cases (run_succ_of_refused hfirst n).symm.trans h

/-- A step that answers a next state keeps the mark or has a power-on clear it (R34, R232). -/
theorem step_keeps_unmarked {s t : State} (hs : s.refused = false) (h : step s = .next t) : t.refused = false := by
  obtain hsame | ⟨-, -, hclear⟩ := step_mark h
  · exact hsame.trans hs
  · exact hclear

/-- With no action of the host to come the block is idle (R215, R231). -/
theorem step_idle {s : State} (h : s.host = []) : step s = .next s := by
  rw [step, h]

/-! ### The obligations of 60_exceptions.md -/

/-- Settles O44, by induction on the length of the run. -/
theorem completedRunIsUnmarked : Obligations.CompletedRunIsUnmarked := fun n _ _ => run_keeps step_keeps_unmarked n

/-- Settles O12. -/
theorem idleBlockHoldsItsState : Obligations.IdleBlockHoldsItsState := fun _ => step_idle

/-- Settles O23: check 1 of R111 passes and check 2 fails, and raising InvalidArgument only answers. -/
theorem badRangeRaisesInvalidArgument : Obligations.BadRangeRaisesInvalidArgument := by
  intro s offset count hmay hbad
  have hrange : outOfRange offset count s.dbuf.len = true := (outOfRange_iff _ _ _).2 hbad
  exact ⟨_, _, exec_update_invalid ((updateForbidden_eq_false_iff s).2 hmay) hrange⟩

end Sys2Proof.Machine

/-! The statement about 70_reset_and_hazards.md: what a power-on loads and what it keeps (R230, R232). -/

namespace Sys2Proof.Machine

theorem step_powerOn {s : State} {rest : List HostEvent} (hhost : s.host = .powerOn :: rest) :
    step s = .next (powerOn (s.setHost rest)) := by
  rw [step_event hhost, hostEvent]

/-- Settles O14: the next state is the power-on of the machine with that action taken, over sixteen free bytes of Pend. -/
theorem powerOnLoadsResetSeed : Obligations.PowerOnLoadsResetSeed := by
  refine ⟨rfl, fun s rest hhost => ⟨freePend s.freeCount, s.freeCount + 16, ?_⟩⟩
  rw [step_powerOn hhost, powerOn, HasherState.init, initialLanes_eq]
  rfl

end Sys2Proof.Machine
